-- ==== Sys2Proof/Word.lean ====
section
/-!
DEFINITION. The word types of the BCU, at the widths of spec/00_scope.md R5, 10_state.md R12 and 30_encoding.md R41, R42.
-/

namespace Sys2Proof

/-- A byte of the bit buffer (20_memory.md R25). -/
abbrev Byte := BitVec 8

/-- A command word, `CMD[79:0]` (30_encoding.md R40). -/
abbrev Cmd := BitVec 80

/-- A bit offset or length, `POS_W` = 32 bits: `base`, `len`, `pos` and the operands `a`, `b`. -/
abbrev Offset := BitVec 32

/-- The `data` field of a response and the accumulator of RDLIT, `VALUE_W` = 64 bits. -/
abbrev Data := BitVec 64

/-- `FAULT` and the `status` field of a response, 4 bits (10_state.md R17). -/
abbrev Status := BitVec 4

/-- A 4-bit index of a cursor context register (30_encoding.md R43). -/
abbrev CtxId := BitVec 4

/-- `NBYTES` and `MEM_BYTES`, 29 bits, so at most 2^29 - 1 (00_scope.md R5, port `buf_nbytes` of 30_encoding.md R52). -/
abbrev ByteCount := BitVec 29

end Sys2Proof
end

