-- ==== Sys2Proof/Config.lean ====
section
/-!
DEFINITION. What a build of the BCU fixes (spec/00_scope.md R5).
The three build parameters are plain data, held in the state and changed by nothing, so a claim is for every build.
The BCU leaves no result undefined, so there is no free value here.
-/

namespace Sys2Proof

/-- The build parameters of 00_scope.md R5. -/
structure Build where
  /-- `NCUR`, the number of cursor context registers, 1 to 16. -/
  ncur : Nat
  /-- `HAS_RDLIT`, the literal decoder is present. -/
  hasRdlit : Bool
  /-- `MEM_BYTES`, the capacity of the bit buffer in bytes, 0 to 2^29 - 1. -/
  memBytes : ByteCount
  deriving DecidableEq, Repr

/-- The defaults of 00_scope.md R5: `NCUR` = 8, `HAS_RDLIT` = 1, `MEM_BYTES` = 2^29 - 1. -/
def Build.standard : Build := { ncur := 8, hasRdlit := true, memBytes := 0x1FFFFFFF#29 }

/-- The range 00_scope.md R5 gives `NCUR` (the range of `MEM_BYTES` is that of its type). -/
abbrev Build.WellFormed (b : Build) : Prop := 1 ≤ b.ncur ∧ b.ncur ≤ 16

end Sys2Proof
end

