-- ==== Sys2Proof/Syntax.lean ====
section
/-!
DEFINITION. The seven commands of spec/30_encoding.md R44, the fields of a command word (R41), the reasons a word is
illegal (R46).
-/

namespace Sys2Proof

/-- A command of BCU-1: one constructor per row of spec/opcode_table.json, its operands as the fields stand (R43). -/
inductive Instr where
  /-- OPEN cd (R56). -/
  | openView (cd : CtxId)
  /-- READ cs, w (R57). -/
  | read (cs : CtxId) (w : Offset)
  /-- REM cs (R58). -/
  | rem (cs : CtxId)
  /-- POS cs (R59). -/
  | pos (cs : CtxId)
  /-- SLICE cd, cs, start, len (R60). -/
  | slice (cd cs : CtxId) (start len : Offset)
  /-- SKIP cs, n (R61). -/
  | skip (cs : CtxId) (n : Offset)
  /-- RDLIT cs (R72). -/
  | rdlit (cs : CtxId)
  deriving DecidableEq, Repr

/-- The fields of a command word (30_encoding.md R41). -/
structure Fields where
  op : BitVec 8
  cd : CtxId
  cs : CtxId
  a : Offset
  b : Offset
  deriving DecidableEq, Repr

/-- Why a command word is illegal: the cases of 30_encoding.md R46. All of them raise the one fault `IllegalCommand`. -/
inductive Illegal where
  /-- R46 (a): `op` is 0x00 or in 0x08 .. 0xFF. -/
  | unknownOpcode
  /-- R46 (b): RDLIT in a build without it. -/
  | rdlitAbsent
  /-- R46 (c): a field that must be zero is not. -/
  | fieldNotZero
  /-- R46 (d): a context index the command uses is `>= NCUR`. -/
  | noSuchContext
  /-- R46 (e): READ with a width of 0 or above 64. -/
  | badWidth
  deriving DecidableEq, Repr

end Sys2Proof
end

