-- ==== Sys2Proof/WellFormed.lean ====
section
/-!
DEFINITION. Which commands a build has: the operands spec/30_encoding.md R46 (b), (d), (e) admits.
The zero fields of R46 (c) are no operands, so a command has none to be wrong.
-/

namespace Sys2Proof

/-- A legal command of build `b`. -/
abbrev Instr.WellFormed (b : Build) : Instr → Prop
  | .openView cd => cd.toNat < b.ncur
  | .read cs w => cs.toNat < b.ncur ∧ 1 ≤ w.toNat ∧ w.toNat ≤ 64
  | .rem cs => cs.toNat < b.ncur
  | .pos cs => cs.toNat < b.ncur
  | .slice cd cs _ _ => cd.toNat < b.ncur ∧ cs.toNat < b.ncur
  | .skip cs _ => cs.toNat < b.ncur
  | .rdlit cs => cs.toNat < b.ncur ∧ b.hasRdlit = true

/-- The source context a command names; OPEN has none (40_cursor_commands.md R55). -/
def Instr.source : Instr → Option CtxId
  | .openView _ => none
  | .read cs _ => some cs
  | .rem cs => some cs
  | .pos cs => some cs
  | .slice _ cs _ _ => some cs
  | .skip cs _ => some cs
  | .rdlit cs => some cs

/-- The context a command writes whole (10_state.md R13): the destination of OPEN and SLICE. -/
def Instr.dest : Instr → Option CtxId
  | .openView cd => some cd
  | .read _ _ => none
  | .rem _ => none
  | .pos _ => none
  | .slice cd _ _ _ => some cd
  | .skip _ _ => none
  | .rdlit _ => none

/-- The context whose position a command may move (10_state.md R13): the source of READ, SKIP and RDLIT. -/
def Instr.mover : Instr → Option CtxId
  | .openView _ => none
  | .read cs _ => some cs
  | .rem _ => none
  | .pos _ => none
  | .slice _ _ _ _ => none
  | .skip cs _ => some cs
  | .rdlit cs => some cs

end Sys2Proof
end

