-- ==== Sys2Proof/Decode.lean ====
section
/-!
DEFINITION. Decoding and encoding of command words (spec/30_encoding.md R41 to R46, R51, R54).
-/

namespace Sys2Proof

/-- `CMD[79:0]` cut into the fields of R41. -/
def splitWord (w : Cmd) : Fields :=
  { op := w.extractLsb' 72 8
    cd := w.extractLsb' 68 4
    cs := w.extractLsb' 64 4
    a := w.extractLsb' 32 32
    b := w.extractLsb' 0 32 }

/-- The fields put together, `op` in the most significant place (R41). -/
def joinWord (f : Fields) : Cmd := f.op ++ f.cd ++ f.cs ++ f.a ++ f.b

/-- The operand conditions of R46 (b), (d), (e): why build `b` does not have this command, if it does not. -/
def operandFault (b : Build) : Instr → Option Illegal
  | .openView cd => if cd.toNat < b.ncur then none else some .noSuchContext
  | .read cs w =>
    if ¬ cs.toNat < b.ncur then some .noSuchContext
    else if 1 ≤ w.toNat ∧ w.toNat ≤ 64 then none else some .badWidth
  | .rem cs => if cs.toNat < b.ncur then none else some .noSuchContext
  | .pos cs => if cs.toNat < b.ncur then none else some .noSuchContext
  | .slice cd cs _ _ => if cd.toNat < b.ncur ∧ cs.toNat < b.ncur then none else some .noSuchContext
  | .skip cs _ => if cs.toNat < b.ncur then none else some .noSuchContext
  | .rdlit cs =>
    if ¬ b.hasRdlit = true then some .rdlitAbsent
    else if cs.toNat < b.ncur then none else some .noSuchContext

/-- `i`, if the fields R45 requires to be zero are zero. -/
def unusedZero (zero : Bool) (i : Instr) : Except Illegal Instr :=
  if zero then .ok i else .error .fieldNotZero

/-- The opcode map (R44) with the zero fields of R45. -/
def commandOf (f : Fields) : Except Illegal Instr :=
  if f.op = 0x01#8 then unusedZero (f.cs == 0#4 && f.a == 0#32 && f.b == 0#32) (.openView f.cd)
  else if f.op = 0x02#8 then unusedZero (f.cd == 0#4 && f.b == 0#32) (.read f.cs f.a)
  else if f.op = 0x03#8 then unusedZero (f.cd == 0#4 && f.a == 0#32 && f.b == 0#32) (.rem f.cs)
  else if f.op = 0x04#8 then unusedZero (f.cd == 0#4 && f.a == 0#32 && f.b == 0#32) (.pos f.cs)
  else if f.op = 0x05#8 then unusedZero true (.slice f.cd f.cs f.a f.b)
  else if f.op = 0x06#8 then unusedZero (f.cd == 0#4 && f.b == 0#32) (.skip f.cs f.a)
  else if f.op = 0x07#8 then unusedZero (f.cd == 0#4 && f.a == 0#32 && f.b == 0#32) (.rdlit f.cs)
  else .error .unknownOpcode

/-- `i`, if build `b` has it. -/
def admitted (b : Build) (i : Instr) : Except Illegal Instr :=
  match operandFault b i with
  | none => .ok i
  | some r => .error r

/-- Decoding: total on all 2^80 words (R54). It depends on the word and the build alone (R46). -/
def decode (b : Build) (w : Cmd) : Except Illegal Instr :=
  match commandOf (splitWord w) with
  | .ok i => admitted b i
  | .error r => .error r

/-- The opcode of a command (R44). -/
def opcodeOf : Instr → BitVec 8
  | .openView _ => 0x01#8
  | .read _ _ => 0x02#8
  | .rem _ => 0x03#8
  | .pos _ => 0x04#8
  | .slice _ _ _ _ => 0x05#8
  | .skip _ _ => 0x06#8
  | .rdlit _ => 0x07#8

/-- The fields an assembler writes for a command, zero in every unused one (R51). -/
def fieldsOf (i : Instr) : Fields :=
  match i with
  | .openView cd => { op := opcodeOf i, cd := cd, cs := 0, a := 0, b := 0 }
  | .read cs w => { op := opcodeOf i, cd := 0, cs := cs, a := w, b := 0 }
  | .rem cs => { op := opcodeOf i, cd := 0, cs := cs, a := 0, b := 0 }
  | .pos cs => { op := opcodeOf i, cd := 0, cs := cs, a := 0, b := 0 }
  | .slice cd cs start len => { op := opcodeOf i, cd := cd, cs := cs, a := start, b := len }
  | .skip cs n => { op := opcodeOf i, cd := 0, cs := cs, a := n, b := 0 }
  | .rdlit cs => { op := opcodeOf i, cd := 0, cs := cs, a := 0, b := 0 }

/-- The word of a command (R51). -/
def encode (i : Instr) : Cmd := joinWord (fieldsOf i)

/-- The command a word of `nbits` bits stands for in the default build, bit 0 the least significant; bits above `nbits`
are 0. A command is ONE word of 80 bits, so no words have to be put in an order. -/
def decodeTableWord (nbits w : Nat) : Option Instr :=
  match decode Build.standard (BitVec.ofNat 80 (w % 2 ^ nbits)) with
  | .ok i => some i
  | .error _ => none

end Sys2Proof
end

