-- ==== Sys2Proof/Machine/State.lean ====
section
/-!
DEFINITION. The state of the BCU (spec/10_state.md R11, R20, R22), as plain data, with the launch it runs in and the
host's side of its two channels.
-/

namespace Sys2Proof.Machine

open Sys2Proof

/-- A cursor context register (10_state.md R12). -/
structure Ctx where
  valid : Bool
  base : Offset
  len : Offset
  pos : Offset
  deriving DecidableEq, Repr

/-- A response word `RSP[67:0]` (30_encoding.md R42). -/
structure Rsp where
  status : Status
  data : Data
  deriving DecidableEq, Repr

/-- The faults of the BCU (60_exceptions.md R77). A fault is an EFFECT of a command, recorded in `FAULT` and answered in
the response; it is not a stop of the model. -/
inductive BcuFault where
  | outOfBounds
  | truncated
  | illegalCommand
  | invalidCursor
  | literalOverflow
  deriving DecidableEq, Repr

/-- The moves of the host (70_reset_and_hazards.md R104; "stop" is the empty list of moves). -/
inductive HostMove where
  /-- Issue a command word, any of the 2^80. -/
  | command (w : Cmd)
  /-- Accept the response (`rsp_ready` = 1). -/
  | takeResponse
  /-- Reset, and start a launch over the same buffer (`none`) or over a new byte sequence. -/
  | reset (bytes : Option (List Byte))
  deriving DecidableEq, Repr

/-- The bit buffer's bytes: cells with strictly rising addresses, none of value 0, which is what an unlisted address
below `NBYTES` reads as (log 2). -/
abbrev Memory := List Host.Cell

/-- The canonical form, from address `lo` on. -/
def Memory.wfFrom : Nat → Memory → Bool
  | _, [] => true
  | lo, (a, b) :: m => decide (lo ≤ a) && (b != 0#8) && Memory.wfFrom (a + 1) m

/-- The canonical form: addresses strictly rising, no cell of value 0. -/
def Memory.wf (m : Memory) : Bool := Memory.wfFrom 0 m

structure State where
  /-- The build parameters `NCUR`, `HAS_RDLIT`, `MEM_BYTES` (00_scope.md R5): no step changes them. -/
  build : Build
  /-- `NBYTES` of this launch (10_state.md R20): only a reset changes it. -/
  nbytes : ByteCount
  /-- `MEM` of this launch (10_state.md R20): only a reset changes it. -/
  mem : Memory
  /-- `c[0] .. c[15]`; those at `NCUR` and above do not exist and keep their reset value (log 6). -/
  ctxs : Vector Ctx 16
  /-- `FAULT` (10_state.md R17). -/
  fault : Status
  /-- The response presented and not yet transferred (30_encoding.md R53). -/
  rsp : Option Rsp
  /-- The moves the host will make, next first. Not BCU state (log 5). -/
  host : List HostMove
  /-- The responses transferred so far, oldest first. Not BCU state (log 5). -/
  responses : List Rsp
  deriving DecidableEq, Repr

/-- Why the machine stops. -/
inductive Fault where
  /-- Raised by READ and RDLIT when they ask for a byte at or above `NBYTES`, which does not exist (20_memory.md R31).
  Safe. It happens only in states that break 10_state.md R14, so in no run. -/
  | outsideBuffer
  deriving DecidableEq, Repr

/-- What the model gives no meaning. -/
inductive Refusal where
  /-- Raised by an arm of `exec` whose instruction has no meaning yet. Safe. No arm does. -/
  | notModelled (mnemonic : String)
  /-- Raised by a reset that offers more bytes than `MEM_BYTES`: the host breaks its duty of 70_reset_and_hazards.md
  R95, and the spec has no such launch. Safe. -/
  | launchTooLarge
  deriving DecidableEq, Repr

/-- What a step or a command answers. -/
abbrev Result := Host.Outcome State Fault Refusal

/-- What the host's next move leads to, before the command itself runs. -/
inductive Poll where
  /-- The outcome is already settled (no command runs). -/
  | settled (o : Result)
  /-- The command word just accepted is `i`, which runs on `s`. -/
  | run (i : Instr) (s : State)

/-- A context register at reset (10_state.md R22): `valid` = 0. The spec leaves `base`, `len` and `pos` unspecified and
unobservable; 0 is the model's value (DESIGN CHOICE, log 1). -/
def Ctx.reset : Ctx := { valid := false, base := 0, len := 0, pos := 0 }

/-- The machine right after reset (10_state.md R22, R94) in the default build, with nothing placed in the buffer (log 4)
and no move of the host yet (log 5). -/
def State.reset : State :=
  { build := Build.standard
    nbytes := 0
    mem := []
    ctxs := Vector.replicate 16 Ctx.reset
    fault := 0
    rsp := none
    host := []
    responses := [] }

end Sys2Proof.Machine
end

