-- ==== Sys2Proof/Machine/Flags.lean ====
section
/-!
DEFINITION. The `FAULT` register's codes and the conditions the commands check (spec/10_state.md R17, R18;
60_exceptions.md R77 to R79; 41_literal_decoder.md R74). The BCU has no carry, zero, sign or overflow flag (10 R18).
-/

namespace Sys2Proof.Machine

open Sys2Proof

/-- `code(X)` (60_exceptions.md R77). -/
def BcuFault.code : BcuFault → Status
  | .outOfBounds => 1#4
  | .truncated => 2#4
  | .illegalCommand => 3#4
  | .invalidCursor => 4#4
  | .literalOverflow => 5#4

/-- `len - pos` (00_scope.md R9 "remaining"), over the naturals; it does not underflow in a reachable state (R63 (a)). -/
def Ctx.remaining (c : Ctx) : Nat := c.len.toNat - c.pos.toNat

/-- The bounds check of READ and SKIP: fewer than `n` bits remain (60_exceptions.md R78). -/
def Ctx.tooFew (c : Ctx) (n : Nat) : Bool := decide (c.remaining < n)

/-- The bounds check of SLICE: the window does not fit, a sum over the naturals (40 R60, R63 (c)). -/
def Ctx.windowMisfit (c : Ctx) (start len : Offset) : Bool := decide (c.len.toNat < start.toNat + len.toNat)

/-- `acc[63:60] != 0`: another group would shift a set bit out (41_literal_decoder.md R72, R74). -/
def accFull (acc : Data) : Bool := acc.extractLsb' 60 4 != 0#4

/-- `g[4]`, the continuation flag of a group (41_literal_decoder.md R71). -/
def groupContinues (g : Nat) : Bool := g.testBit 4

/-- `{acc[59:0], g[3:0]}` (41_literal_decoder.md R72). -/
def pushGroup (acc : Data) (g : Nat) : Data := acc.extractLsb' 0 60 ++ BitVec.ofNat 4 g

end Sys2Proof.Machine
end

