-- ==== Sys2Proof/Machine/Ops.lean ====
section
/-!
DEFINITION. The named operations over the registers, the buffer and the response channel; raising a fault (spec/
60_exceptions.md R82) and refusing a command after one (R84) as shared operations; the common prologue (40 R55); reset.
-/

namespace Sys2Proof.Machine

open Sys2Proof

/-- `c[i]` (00_scope.md R8). -/
def State.ctx (s : State) (i : CtxId) : Ctx := s.ctxs[i.toNat]

/-- `c[i] <- c` (00_scope.md R8). -/
def State.setCtx (s : State) (i : CtxId) (c : Ctx) : State := { s with ctxs := s.ctxs.set i.toNat c }

/-- `c[i].pos <- p` (00_scope.md R8). -/
def State.setPos (s : State) (i : CtxId) (p : Offset) : State := s.setCtx i { s.ctx i with pos := p }

/-- The byte listed at an address; an unlisted one reads 0 (log 2). -/
def lookup : Memory → Nat → Byte
  | [], _ => 0#8
  | (a, b) :: m, addr => if a = addr then b else lookup m addr

/-- `MemRead(addr, 1)` (00_scope.md R8): nothing exists at `NBYTES` and above (20_memory.md R31). -/
def State.memRead (s : State) (addr : Nat) : Option Byte :=
  if addr < s.nbytes.toNat then some (lookup s.mem addr) else none

/-- The cells of a byte sequence placed at ascending addresses from `addr` on (70_reset_and_hazards.md R95). -/
def placeFrom : Nat → List Byte → Memory
  | _, [] => []
  | addr, b :: bs => if b = 0#8 then placeFrom (addr + 1) bs else (addr, b) :: placeFrom (addr + 1) bs

/-- The buffer with a byte sequence in place, its first byte at address 0 (70_reset_and_hazards.md R95). -/
def placeBytes (bs : List Byte) : Memory := placeFrom 0 bs

/-- Present a response (30_encoding.md R42). -/
def State.answer (s : State) (status : Status) (data : Data) : State := { s with rsp := some ⟨status, data⟩ }

/-- `respond(v)` (00_scope.md R8). -/
def State.respond (s : State) (v : Data) : State := s.answer 0#4 v

/-- `raise X`: fault entry (60_exceptions.md R82). -/
def State.raise (s : State) (x : BcuFault) : State := { s with fault := x.code }.answer x.code 0#64

/-- A command refused because of an earlier fault (60_exceptions.md R84). -/
def State.refuse (s : State) : State := s.answer s.fault 0#64

/-- The prologue's first two checks (40_cursor_commands.md R55): an earlier fault, then legality. -/
def State.prologue (s : State) (legal : Bool) (k : Result) : Result :=
  if s.fault ≠ 0#4 then .next s.refuse
  else if legal then k
  else .next (s.raise .illegalCommand)

/-- `Illegal(CMD)` for a word that is some command's, zero fields and opcode included: its operands decide. -/
def State.legal (s : State) (i : Instr) : Bool := (operandFault s.build i).isNone

/-- The whole prologue of a command with a source context (40_cursor_commands.md R55). -/
def State.withSource (s : State) (i : Instr) (cs : CtxId) (k : Ctx → Result) : Result :=
  s.prologue (s.legal i) (if (s.ctx cs).valid then k (s.ctx cs) else .next (s.raise .invalidCursor))

/-- An illegal command word (30_encoding.md R46): refused after an earlier fault, else `IllegalCommand`. -/
def State.illegalWord (s : State) : Result := s.prologue false (.next s)

/-- The reset state (70_reset_and_hazards.md R93, R94) for a launch over `nbytes` and `mem`. There is no return from a
fault but this (60_exceptions.md R85). The build and the host's own record of responses are not the BCU's to reset. -/
def State.restart (s : State) (nbytes : ByteCount) (mem : Memory) : State :=
  { s with nbytes := nbytes, mem := mem, ctxs := State.reset.ctxs, fault := State.reset.fault, rsp := State.reset.rsp }

/-- The host's reset move (70 R93, R95, R104), over the same buffer or a new byte sequence of at most `MEM_BYTES`. -/
def State.hostReset (s : State) (bytes : Option (List Byte)) : Result :=
  match bytes with
  | none => .next (s.restart s.nbytes s.mem)
  | some bs =>
    if bs.length ≤ s.build.memBytes.toNat then .next (s.restart (BitVec.ofNat 29 bs.length) (placeBytes bs))
    else .refused .launchTooLarge

/-- The response transfers to the host (30_encoding.md R52, R53). -/
def State.transfer (s : State) : State :=
  match s.rsp with
  | some r => { s with rsp := none, responses := s.responses ++ [r] }
  | none => s

/-- A command word is accepted and decoded (30_encoding.md R53, R54). -/
def State.accept (s : State) (w : Cmd) : Poll :=
  match decode s.build w with
  | .ok i => .run i s
  | .error _ => .settled s.illegalWord

/-- The host's next move. With none, the BCU idles (60 R92). A command presented while a response is outstanding waits
(`cmd_ready` = 0, 30 R53): the response transfers first, as the host's duty to accept it has it (70 R104, log 11). -/
def State.poll (s : State) : Poll :=
  match s.host with
  | [] => .settled (.next s)
  | .takeResponse :: ms => .settled (.next { s with host := ms }.transfer)
  | .reset bytes :: ms => .settled ({ s with host := ms }.hostReset bytes)
  | .command w :: ms =>
    match s.rsp with
    | some _ => .settled (.next s.transfer)
    | none => { s with host := ms }.accept w

/-- The host issues the 80-bit word `w` next, with no response in its way. -/
def State.issueNext (s : State) (w : Cmd) : State := { s with host := .command w :: s.host, rsp := none }

end Sys2Proof.Machine
end

