-- ==== Sys2Proof/Machine/Operands.lean ====
section
/-!
DEFINITION. The operand a command reads from the bit buffer: stream bits and fields (spec/20_memory.md R27, R28), by the
one addressing mode `base + pos` (40_cursor_commands.md R68).
-/

namespace Sys2Proof.Machine

open Sys2Proof

/-- `StreamBit(k)` = `MemRead(k div 8, 1)[7 - (k mod 8)]` (20_memory.md R27). -/
def State.streamBit (s : State) (k : Nat) : Option Bool :=
  (s.memRead (k / 8)).map fun byte => byte.getLsbD (7 - k % 8)

/-- `Field(k, w)`, the first bit the most significant (20_memory.md R28). -/
def State.field (s : State) (k : Nat) : Nat → Option Nat
  | 0 => some 0
  | w + 1 =>
    match s.field k w, s.streamBit (k + w) with
    | some v, some b => some (2 * v + b.toNat)
    | _, _ => none

/-- The stream-bit address a cursor reads from next (40_cursor_commands.md R68). -/
def Ctx.address (c : Ctx) : Nat := c.base.toNat + c.pos.toNat

/-- Continue with `Field(k, w)`; a bit that does not exist stops the model (log 7). -/
def State.withField (s : State) (k w : Nat) (f : Nat → Result) : Result :=
  match s.field k w with
  | some v => f v
  | none => .fault .outsideBuffer

end Sys2Proof.Machine
end

