-- ==== Sys2Proof/Machine/Cursor.lean ====
section
/-!
DEFINITION. The cursor commands OPEN, READ, REM, POS, SLICE, SKIP (spec/40_cursor_commands.md R56 to R61).
-/

namespace Sys2Proof.Machine

open Sys2Proof

/-- The root view over the whole buffer: `{1, 0, 8 * NBYTES, 0}` (R56). -/
def State.rootView (s : State) : Ctx :=
  { valid := true, base := 0, len := BitVec.ofNat 32 (8 * s.nbytes.toNat), pos := 0 }

/-- The window of `len` bits from `start` on, cut from view `c`: `{1, base + start, len, 0}` (R60). -/
def Ctx.window (c : Ctx) (start len : Offset) : Ctx := { valid := true, base := c.base + start, len := len, pos := 0 }

/-- OPEN cd (R56). -/
def execOpen (cd : CtxId) (s : State) : Result :=
  s.prologue (s.legal (.openView cd)) (.next ((s.setCtx cd s.rootView).respond 0))

/-- READ cs, w (R57). -/
def execRead (cs : CtxId) (w : Offset) (s : State) : Result :=
  s.withSource (.read cs w) cs fun c =>
    if c.tooFew w.toNat then .next (s.raise .outOfBounds)
    else s.withField c.address w.toNat fun v => .next ((s.setPos cs (c.pos + w)).respond (BitVec.ofNat 64 v))

/-- REM cs (R58). -/
def execRem (cs : CtxId) (s : State) : Result :=
  s.withSource (.rem cs) cs fun c => .next (s.respond (BitVec.ofNat 64 c.remaining))

/-- POS cs (R59). -/
def execPos (cs : CtxId) (s : State) : Result :=
  s.withSource (.pos cs) cs fun c => .next (s.respond (c.pos.setWidth 64))

/-- SLICE cd, cs, start, len (R60). -/
def execSlice (cd cs : CtxId) (start len : Offset) (s : State) : Result :=
  s.withSource (.slice cd cs start len) cs fun c =>
    if c.windowMisfit start len then .next (s.raise .outOfBounds)
    else .next ((s.setCtx cd (c.window start len)).respond 0)

/-- SKIP cs, n (R61). -/
def execSkip (cs : CtxId) (n : Offset) (s : State) : Result :=
  s.withSource (.skip cs n) cs fun c =>
    if c.tooFew n.toNat then .next (s.raise .outOfBounds)
    else .next ((s.setPos cs (c.pos + n)).respond 0)

end Sys2Proof.Machine
end

