-- ==== Sys2Proof/Machine/Literal.lean ====
section
/-!
DEFINITION. The literal decoder command RDLIT (spec/41_literal_decoder.md R70 to R76).
-/

namespace Sys2Proof.Machine

open Sys2Proof

/-- The loop of R72 from working position `p` with accumulator `acc`, then `finish p acc`. The first argument is
`(len - p) div 5`, the number of complete groups left: it is 0 exactly when `len - p < 5`, and R76 bounds the loop by
it. On a fault the position is not updated, because only `finish` writes it. -/
def State.literalLoop (s : State) (base : Nat) (finish : Nat → Data → Result) : Nat → Nat → Data → Result
  | 0, _, _ => .next (s.raise .truncated)
  | groups + 1, p, acc =>
    s.withField (base + p) 5 fun g =>
      if accFull acc then .next (s.raise .literalOverflow)
      else if groupContinues g then s.literalLoop base finish groups (p + 5) (pushGroup acc g)
      else finish (p + 5) (pushGroup acc g)

/-- RDLIT cs (R72). -/
def execRdlit (cs : CtxId) (s : State) : Result :=
  s.withSource (.rdlit cs) cs fun c =>
    s.literalLoop c.base.toNat (fun p acc => .next ((s.setPos cs (BitVec.ofNat 32 p)).respond acc))
      (c.remaining / 5) c.pos.toNat 0

end Sys2Proof.Machine
end

