-- ==== Sys2Proof/Machine/Dispatch.lean ====
section
/-!
DEFINITION. One arm per command, each a call of its meaning.
-/

namespace Sys2Proof.Machine

open Sys2Proof

def exec (i : Instr) (s : State) : Host.Outcome State Fault Refusal :=
  match i with
  | .openView cd => Sys2Proof.Machine.execOpen cd s
  | .read cs w => Sys2Proof.Machine.execRead cs w s
  | .rem cs => Sys2Proof.Machine.execRem cs s
  | .pos cs => Sys2Proof.Machine.execPos cs s
  | .slice cd cs start len => Sys2Proof.Machine.execSlice cd cs start len s
  | .skip cs n => Sys2Proof.Machine.execSkip cs n s
  | .rdlit cs => Sys2Proof.Machine.execRdlit cs s

end Sys2Proof.Machine
end

