-- ==== Sys2Proof/Machine/Step.lean ====
section
/-!
DEFINITION. One step: the host's next move, and the command it issues, if it issues one (spec/10_state.md R23,
70_reset_and_hazards.md R104).
-/

namespace Sys2Proof.Machine

open Sys2Proof

def step (s : State) : Host.Outcome State Fault Refusal :=
  match s.poll with
  | .settled o => o
  | .run i s' => exec i s'

/-- The BCU fetches nothing: the host issues the word next (log 5). Bits above `nbits` are 0. -/
def State.withFetchWord (s : State) (nbits w : Nat) : State := s.issueNext (BitVec.ofNat 80 (w % 2 ^ nbits))

end Sys2Proof.Machine
end

