-- ==== Sys2Proof/Safety.lean ====
section
/-!
DEFINITION. The terms claims are stated in: the invariant of a launch, the closed forms of spec/20_memory.md R28 and
41_literal_decoder.md R73, when a command passes the prologue, what a command leaves alone.
-/

namespace Sys2Proof.Machine

open Sys2Proof

/-- 10_state.md R14 for one view: (I1) `pos <= len`, (I2) `base + len <= 8 * NBYTES`. -/
abbrev Ctx.Inside (c : Ctx) (nbytes : ByteCount) : Prop :=
  c.pos.toNat ≤ c.len.toNat ∧ c.base.toNat + c.len.toNat ≤ 8 * nbytes.toNat

/-- A response word of 30_encoding.md R42: `status` at most 5, and `data` 0 when `status` is not 0. -/
abbrev Rsp.Legal (r : Rsp) : Prop := r.status.toNat ≤ 5 ∧ (r.status ≠ 0#4 → r.data = 0#64)

/-- The launch the host has set up (70_reset_and_hazards.md R104): a build in range, the buffer's cells in canonical
form and below `NBYTES`, `NBYTES <= MEM_BYTES`. -/
abbrev State.LaunchOk (s : State) : Prop :=
  s.build.WellFormed ∧ Memory.wf s.mem = true ∧ (∀ cell ∈ s.mem, cell.1 < s.nbytes.toNat) ∧
    s.nbytes.toNat ≤ s.build.memBytes.toNat

/-- What holds in every reachable state: the launch is set up; every valid view lies in the buffer with its position in
the view (10_state.md R14); a context register that does not exist is as reset left it (R12); `FAULT` is at most 5
(R17); the outstanding response reports `FAULT` (30_encoding.md R42); every response is a legal one. -/
abbrev State.Inv (s : State) : Prop :=
  s.LaunchOk ∧
    (∀ i : CtxId, (s.ctx i).valid = true → (s.ctx i).Inside s.nbytes) ∧
    (∀ i : CtxId, s.build.ncur ≤ i.toNat → s.ctx i = Ctx.reset) ∧
    s.fault.toNat ≤ 5 ∧
    (∀ r ∈ s.rsp, r.status = s.fault ∧ r.Legal) ∧
    ∀ r ∈ s.responses, r.Legal

/-- `i` passes the prologue in `s` (40_cursor_commands.md R55): no earlier fault, a legal command, a valid source. -/
abbrev State.Ready (s : State) (i : Instr) : Prop :=
  s.fault = 0#4 ∧ i.WellFormed s.build ∧ ∀ cs ∈ i.source, (s.ctx cs).valid = true

/-- The check of the command's own that raises `OutOfBounds` (60_exceptions.md R78). -/
abbrev State.Shortage (s : State) : Instr → Prop
  | .openView _ => False
  | .read cs w => (s.ctx cs).len.toNat - (s.ctx cs).pos.toNat < w.toNat
  | .rem _ => False
  | .pos _ => False
  | .slice _ cs start len => (s.ctx cs).len.toNat < start.toNat + len.toNat
  | .skip cs n => (s.ctx cs).len.toNat - (s.ctx cs).pos.toNat < n.toNat
  | .rdlit _ => False

/-- `t` is `s` in everything no command writes: the build, the launch, every byte of the buffer, the host's side. -/
def State.SameWorld (s t : State) : Prop :=
  t.build = s.build ∧ t.nbytes = s.nbytes ∧ t.mem = s.mem ∧ (∀ a, t.memRead a = s.memRead a) ∧ t.host = s.host ∧
    t.responses = s.responses

/-- Stream bit `k` as a number (20_memory.md R27): the bit of weight 2^(7 - k mod 8) of byte `k div 8`; 0 outside the
buffer. -/
def State.bitAt (s : State) (k : Nat) : Nat := (((s.memRead (k / 8)).getD 0).getLsbD (7 - k % 8)).toNat

/-- The sum of 20_memory.md R28. -/
def State.fieldSum (s : State) (k w : Nat) : Nat := ∑ i ∈ Finset.range w, s.bitAt (k + i) * 2 ^ (w - 1 - i)

/-- The flag of the 5-bit group at stream bit `k` (41_literal_decoder.md R71): its first bit. -/
def State.groupFlag (s : State) (k : Nat) : Nat := s.bitAt k

/-- The payload of the 5-bit group at stream bit `k` (41_literal_decoder.md R71): the four bits after the flag. -/
def State.groupPayload (s : State) (k : Nat) : Nat := s.fieldSum (k + 1) 4

/-- The value of the first `m` groups from stream bit `k` on (41_literal_decoder.md R73). -/
def State.literalValue (s : State) (k m : Nat) : Nat :=
  ∑ j ∈ Finset.range m, s.groupPayload (k + 5 * j) * 16 ^ (m - 1 - j)

/-- The literal from stream bit `k` on has exactly `m` groups: `m` is the least index with flag 0 (R73). -/
def State.LiteralEnds (s : State) (k m : Nat) : Prop :=
  1 ≤ m ∧ (∀ j < m - 1, s.groupFlag (k + 5 * j) = 1) ∧ s.groupFlag (k + 5 * (m - 1)) = 0

/-- None of the first `m` groups from stream bit `k` on has flag 0. -/
def State.NoGroupEnds (s : State) (k m : Nat) : Prop := ∀ j < m, s.groupFlag (k + 5 * j) = 1

/-- READs of the given widths through one cursor, one after another (40_cursor_commands.md R64). -/
def readAll (cs : CtxId) : List Offset → State → Result
  | [], s => .next s
  | w :: ws, s =>
    match exec (.read cs w) s with
    | .next t => readAll cs ws t
    | .fault r => .fault r
    | .refused r => .refused r

/-- The host's own literal decoding (41_literal_decoder.md R75): `READ cs, 5` at most `n` times, `acc <- acc * 16 +
g[3:0]` after each response `g`, until one has `g[4] = 0`. `none` when a READ fails or `n` are not enough. -/
def hostLiteral (cs : CtxId) : Nat → Nat → State → Option (Nat × State)
  | 0, _, _ => none
  | n + 1, acc, s =>
    match exec (.read cs 5#32) s with
    | .next t =>
      match t.rsp with
      | some r =>
        if r.status ≠ 0#4 then none
        else if r.data.getLsbD 4 then hostLiteral cs n (acc * 16 + r.data.toNat % 16) t
        else some (acc * 16 + r.data.toNat % 16, t)
      | none => none
    | .fault _ => none
    | .refused _ => none

/-- A command word is illegal in build `b`: the five cases of 30_encoding.md R46, on the bits of the word. -/
def IllegalWord (b : Build) (w : Cmd) : Prop :=
  let op := (w.extractLsb' 72 8).toNat
  let cd := (w.extractLsb' 68 4).toNat
  let cs := (w.extractLsb' 64 4).toNat
  let a := (w.extractLsb' 32 32).toNat
  let l := (w.extractLsb' 0 32).toNat
  (op = 0 ∨ 8 ≤ op) ∨
  (op = 7 ∧ b.hasRdlit = false) ∨
  ((op = 1 ∧ (cs ≠ 0 ∨ a ≠ 0 ∨ l ≠ 0)) ∨ (op = 2 ∧ (cd ≠ 0 ∨ l ≠ 0)) ∨ (op = 3 ∧ (cd ≠ 0 ∨ a ≠ 0 ∨ l ≠ 0)) ∨
    (op = 4 ∧ (cd ≠ 0 ∨ a ≠ 0 ∨ l ≠ 0)) ∨ (op = 6 ∧ (cd ≠ 0 ∨ l ≠ 0)) ∨ (op = 7 ∧ (cd ≠ 0 ∨ a ≠ 0 ∨ l ≠ 0))) ∨
  ((op = 1 ∧ b.ncur ≤ cd) ∨ ((op = 2 ∨ op = 3 ∨ op = 4 ∨ op = 6 ∨ op = 7) ∧ b.ncur ≤ cs) ∨
    (op = 5 ∧ (b.ncur ≤ cd ∨ b.ncur ≤ cs))) ∨
  (op = 2 ∧ (a = 0 ∨ 64 < a))

/-- The next move of the host is no reset. -/
def State.NoResetNext (s : State) : Prop := ∀ bytes ms, s.host ≠ .reset bytes :: ms

/-- The host keeps its duty of 70_reset_and_hazards.md R95 in its next move: no more than `MEM_BYTES` bytes. -/
def State.NextLaunchFits (s : State) : Prop :=
  ∀ bs ms, s.host = .reset (some bs) :: ms → bs.length ≤ s.build.memBytes.toNat

/-- `t` may differ from `s` only in `base`, `len` and `pos` of contexts that are not valid (10_state.md R21). -/
def State.Indistinct (s t : State) : Prop :=
  t.build = s.build ∧ t.nbytes = s.nbytes ∧ t.mem = s.mem ∧ t.fault = s.fault ∧ t.rsp = s.rsp ∧ t.host = s.host ∧
    t.responses = s.responses ∧
    ∀ i : CtxId, (t.ctx i).valid = (s.ctx i).valid ∧ ((s.ctx i).valid = true → t.ctx i = s.ctx i)

end Sys2Proof.Machine
end

