-- ==== Sys2Proof/Certificates/Slice0/Obligations.lean ====
section
/-!
DEFINITION. The statements about the BCU for the provers. Each docstring names the rule of spec/ it formalises.
-/

open Sys2Proof Sys2Proof.Machine

/-! ## Encoding -/

/-- 30_encoding.md R41, R44: words spelt out in spec/ decode to the commands spec/ gives them, one per command. -/
def Obligations.SpecWordsDecode : Prop :=
  decode Build.standard 0x01700000000000000000#80 = .ok (.openView 7) ∧
  decode Build.standard 0x02010000000B00000000#80 = .ok (.read 1 11) ∧
  decode Build.standard 0x03020000000000000000#80 = .ok (.rem 2) ∧
  decode Build.standard 0x04010000000000000000#80 = .ok (.pos 1) ∧
  decode Build.standard 0x0510000000160000001B#80 = .ok (.slice 1 0 22 27) ∧
  decode Build.standard 0x06000000001B00000000#80 = .ok (.skip 0 27) ∧
  decode Build.standard 0x07010000000000000000#80 = .ok (.rdlit 1)

/-- 30_encoding.md R51: the word an assembler writes for a legal command decodes to it, in every build. -/
def Obligations.DecodeOfEncode : Prop :=
  ∀ (b : Build) (i : Instr), i.WellFormed b → decode b (encode i) = .ok i

/-- 30_encoding.md R50: a legal word has one spelling, so decoding loses no bit of it. -/
def Obligations.EncodeOfDecode : Prop :=
  ∀ (b : Build) (w : Cmd) (i : Instr), decode b w = .ok i → i.WellFormed b ∧ encode i = w

/-- 30_encoding.md R46: the decoder refuses exactly the words of cases (a) to (e), and when `FAULT` = 0 exactly those
raise `IllegalCommand` (code 3): the word is consumed, `FAULT` becomes 3, the response is `{3, 0}`, and nothing else
changes (60_exceptions.md R82), a word that is no command's included. -/
def Obligations.IllegalWordsExactly : Prop :=
  (∀ (b : Build) (w : Cmd), (∃ r, decode b w = .error r) ↔ IllegalWord b w) ∧
  ∀ (s : State) (w : Cmd) (ms : List HostMove), s.host = .command w :: ms → s.rsp = none → s.fault = 0#4 →
    ((∃ t, step s = .next t ∧ t.fault = 3#4) ↔ IllegalWord s.build w) ∧
    (IllegalWord s.build w → step s = .next { s with host := ms, fault := 3#4, rsp := some ⟨3#4, 0#64⟩ })

/-- spec/opcode_table.json, 30_encoding.md R44: each row's mask and match, with its constraints, are the decoder's. -/
def Obligations.OpcodeTableRows : Prop :=
  ∀ (b : Build) (w : Cmd) (cd cs : CtxId) (a l : Offset),
    (decode b w = .ok (.openView cd) ↔
      w &&& 0xFF0FFFFFFFFFFFFFFFFF#80 = 0x01000000000000000000#80 ∧ w.extractLsb' 68 4 = cd ∧ cd.toNat < b.ncur) ∧
    (decode b w = .ok (.read cs a) ↔
      w &&& 0xFFF0FFFFFF80FFFFFFFF#80 = 0x02000000000000000000#80 ∧ w.extractLsb' 64 4 = cs ∧
        w.extractLsb' 32 32 = a ∧ cs.toNat < b.ncur ∧ 1 ≤ a.toNat ∧ a.toNat ≤ 64) ∧
    (decode b w = .ok (.rem cs) ↔
      w &&& 0xFFF0FFFFFFFFFFFFFFFF#80 = 0x03000000000000000000#80 ∧ w.extractLsb' 64 4 = cs ∧ cs.toNat < b.ncur) ∧
    (decode b w = .ok (.pos cs) ↔
      w &&& 0xFFF0FFFFFFFFFFFFFFFF#80 = 0x04000000000000000000#80 ∧ w.extractLsb' 64 4 = cs ∧ cs.toNat < b.ncur) ∧
    (decode b w = .ok (.slice cd cs a l) ↔
      w &&& 0xFF000000000000000000#80 = 0x05000000000000000000#80 ∧ w.extractLsb' 68 4 = cd ∧
        w.extractLsb' 64 4 = cs ∧ w.extractLsb' 32 32 = a ∧ w.extractLsb' 0 32 = l ∧ cd.toNat < b.ncur ∧
        cs.toNat < b.ncur) ∧
    (decode b w = .ok (.skip cs a) ↔
      w &&& 0xFFF000000000FFFFFFFF#80 = 0x06000000000000000000#80 ∧ w.extractLsb' 64 4 = cs ∧
        w.extractLsb' 32 32 = a ∧ cs.toNat < b.ncur) ∧
    (decode b w = .ok (.rdlit cs) ↔
      w &&& 0xFFF0FFFFFFFFFFFFFFFF#80 = 0x07000000000000000000#80 ∧ w.extractLsb' 64 4 = cs ∧ cs.toNat < b.ncur ∧
        b.hasRdlit = true)

/-! ## The step and the host's moves -/

/-- 10_state.md R23: a step whose next move issues a word that decodes to `i`, no response being outstanding, is `exec i`
on the state with that move taken off the host's list. -/
def Obligations.StepRunsDecodedCommand : Prop :=
  ∀ (s : State) (w : Cmd) (ms : List HostMove) (i : Instr), s.host = .command w :: ms → s.rsp = none →
    decode s.build w = .ok i → step s = exec i { s with host := ms }

/-- 30_encoding.md R46, R51: issuing the word of ANY command, legal or not, is `exec` of it: the legality check `exec`
makes on the command is the decoder's on the word. -/
def Obligations.IssuedCommandIsExec : Prop :=
  ∀ (s : State) (i : Instr) (ms : List HostMove), s.host = .command (encode i) :: ms → s.rsp = none →
    step s = exec i { s with host := ms }

/-- 30_encoding.md R42, R53: an accepted word is answered by one response, presented and not yet transferred, of status
at most 5 when `FAULT` is; `status` is `FAULT` after the step, and `data` is 0 when it is not 0. -/
def Obligations.OneResponsePerCommand : Prop :=
  ∀ (s t : State) (w : Cmd) (ms : List HostMove), s.host = .command w :: ms → s.rsp = none → step s = .next t →
    t.host = ms ∧ t.responses = s.responses ∧
      ∃ r, t.rsp = some r ∧ r.status = t.fault ∧ (r.status ≠ 0#4 → r.data = 0#64) ∧
        (s.fault.toNat ≤ 5 → r.status.toNat ≤ 5)

/-- 30_encoding.md R53, 70_reset_and_hazards.md R104: a word presented while a response is outstanding is not accepted
until that response has been transferred (that the host takes it then is the model's reading, log 11); a response the
host takes stands last in its record; a host that makes no move leaves the BCU as it is. -/
def Obligations.HostMovesOtherThanReset : Prop :=
  (∀ (s : State) (w : Cmd) (ms : List HostMove) (r : Rsp), s.host = .command w :: ms → s.rsp = some r →
    step s = .next { s with rsp := none, responses := s.responses ++ [r] }) ∧
  (∀ (s : State) (ms : List HostMove) (r : Rsp), s.host = .takeResponse :: ms → s.rsp = some r →
    step s = .next { s with host := ms, rsp := none, responses := s.responses ++ [r] }) ∧
  (∀ (s : State) (ms : List HostMove), s.host = .takeResponse :: ms → s.rsp = none →
    step s = .next { s with host := ms }) ∧
  ∀ s : State, s.host = [] → step s = .next s

/-- 70_reset_and_hazards.md R93 to R95, R103, 10_state.md R22: after reset every `valid` is 0, `FAULT` is 0 and no
response is pending; the reset move gives that state whatever the BCU was doing, drops an outstanding response, leaves
the buffer alone or starts a launch over the new byte sequence, first byte at address 0. The context fields after it are
those of the first reset ("one kind of reset"). -/
def Obligations.ResetMoveStartsLaunch : Prop :=
  ((∀ i : CtxId, (State.reset.ctx i).valid = false) ∧ State.reset.fault = 0#4 ∧ State.reset.rsp = none) ∧
  (∀ (s : State) (ms : List HostMove), s.host = .reset none :: ms →
    ∃ t, step s = .next t ∧ t.build = s.build ∧ t.nbytes = s.nbytes ∧ t.mem = s.mem ∧
      (∀ i : CtxId, t.ctx i = State.reset.ctx i) ∧ t.fault = 0#4 ∧ t.rsp = none ∧ t.host = ms ∧
      t.responses = s.responses) ∧
  ∀ (s : State) (ms : List HostMove) (bs : List Byte), s.host = .reset (some bs) :: ms →
    bs.length ≤ s.build.memBytes.toNat →
    ∃ t, step s = .next t ∧ t.build = s.build ∧ t.nbytes.toNat = bs.length ∧ (∀ a, t.memRead a = bs[a]?) ∧
      (∀ i : CtxId, t.ctx i = State.reset.ctx i) ∧ t.fault = 0#4 ∧ t.rsp = none ∧ t.host = ms ∧
      t.responses = s.responses

/-! ## What the commands compute -/

/-- 40_cursor_commands.md R56: OPEN completes and writes the root view, and nothing else. -/
def Obligations.OpenMakesRootView : Prop :=
  ∀ (s : State) (cd : CtxId), s.fault = 0#4 → cd.toNat < s.build.ncur →
    ∃ t, exec (.openView cd) s = .next t ∧ (t.ctx cd).valid = true ∧ (t.ctx cd).base = 0#32 ∧
      (t.ctx cd).len.toNat = 8 * s.nbytes.toNat ∧ (t.ctx cd).pos = 0#32 ∧ (∀ j, j ≠ cd → t.ctx j = s.ctx j) ∧
      t.fault = s.fault ∧ t.rsp = some ⟨0#4, 0#64⟩ ∧ s.SameWorld t

/-- 40_cursor_commands.md R57 with 20_memory.md R28: READ completes when `w` bits remain, answers the sum of R28 over the
`w` bits from `base + pos` on, zero-extended, and advances `pos` by `w`. -/
def Obligations.ReadAnswersField : Prop :=
  ∀ (s : State) (cs : CtxId) (w : Offset), s.Ready (.read cs w) → (s.ctx cs).Inside s.nbytes →
    w.toNat ≤ (s.ctx cs).len.toNat - (s.ctx cs).pos.toNat →
    ∃ t d, exec (.read cs w) s = .next t ∧ t.rsp = some ⟨0#4, d⟩ ∧
      d.toNat = s.fieldSum ((s.ctx cs).base.toNat + (s.ctx cs).pos.toNat) w.toNat ∧ d.toNat < 2 ^ w.toNat ∧
      (t.ctx cs).pos.toNat = (s.ctx cs).pos.toNat + w.toNat ∧
      t.ctx cs = { s.ctx cs with pos := (t.ctx cs).pos } ∧ (∀ j, j ≠ cs → t.ctx j = s.ctx j) ∧
      t.fault = s.fault ∧ s.SameWorld t

/-- 40_cursor_commands.md R58: REM completes, answers `len - pos` and writes nothing. -/
def Obligations.RemAnswersRemaining : Prop :=
  ∀ (s : State) (cs : CtxId), s.Ready (.rem cs) → (s.ctx cs).Inside s.nbytes →
    ∃ d, exec (.rem cs) s = .next { s with rsp := some ⟨0#4, d⟩ } ∧
      d.toNat = (s.ctx cs).len.toNat - (s.ctx cs).pos.toNat

/-- 40_cursor_commands.md R59: POS completes, answers `pos` and writes nothing; `POS + REM = len`. -/
def Obligations.PosAnswersPosition : Prop :=
  ∀ (s : State) (cs : CtxId), s.Ready (.pos cs) → (s.ctx cs).Inside s.nbytes →
    ∃ d r, exec (.pos cs) s = .next { s with rsp := some ⟨0#4, d⟩ } ∧ d.toNat = (s.ctx cs).pos.toNat ∧
      exec (.rem cs) s = .next { s with rsp := some ⟨0#4, r⟩ } ∧ d.toNat + r.toNat = (s.ctx cs).len.toNat

/-- 40_cursor_commands.md R60: SLICE completes when `start + len <= c[cs].len`, a sum over the naturals, and writes the
window into `c[cd]`, reading `c[cs]` first; nothing else changes, `c[cs].pos` least of all. -/
def Obligations.SliceMakesWindow : Prop :=
  ∀ (s : State) (cd cs : CtxId) (start len : Offset), s.Ready (.slice cd cs start len) →
    (s.ctx cs).Inside s.nbytes → start.toNat + len.toNat ≤ (s.ctx cs).len.toNat →
    ∃ t, exec (.slice cd cs start len) s = .next t ∧ (t.ctx cd).valid = true ∧
      (t.ctx cd).base.toNat = (s.ctx cs).base.toNat + start.toNat ∧ (t.ctx cd).len = len ∧ (t.ctx cd).pos = 0#32 ∧
      (∀ j, j ≠ cd → t.ctx j = s.ctx j) ∧ t.fault = s.fault ∧ t.rsp = some ⟨0#4, 0#64⟩ ∧ s.SameWorld t

/-- 40_cursor_commands.md R61: SKIP completes when `n` bits remain and advances `pos` by `n`; `n = 0` changes nothing. -/
def Obligations.SkipAdvances : Prop :=
  ∀ (s : State) (cs : CtxId) (n : Offset), s.Ready (.skip cs n) → (s.ctx cs).Inside s.nbytes →
    n.toNat ≤ (s.ctx cs).len.toNat - (s.ctx cs).pos.toNat →
    ∃ t, exec (.skip cs n) s = .next t ∧ (t.ctx cs).pos.toNat = (s.ctx cs).pos.toNat + n.toNat ∧
      t.ctx cs = { s.ctx cs with pos := (t.ctx cs).pos } ∧ (∀ j, j ≠ cs → t.ctx j = s.ctx j) ∧
      t.fault = s.fault ∧ t.rsp = some ⟨0#4, 0#64⟩ ∧ s.SameWorld t ∧ (n = 0#32 → t.ctxs = s.ctxs)

/-- 41_literal_decoder.md R73: when the literal at the position has `m` groups inside the view and its value is below
2^64, RDLIT completes, answers the value and advances `pos` by `5 * m`. -/
def Obligations.RdlitAnswersValue : Prop :=
  ∀ (s : State) (cs : CtxId) (m : Nat), s.Ready (.rdlit cs) → (s.ctx cs).Inside s.nbytes →
    s.LiteralEnds ((s.ctx cs).base.toNat + (s.ctx cs).pos.toNat) m →
    5 * m ≤ (s.ctx cs).len.toNat - (s.ctx cs).pos.toNat →
    s.literalValue ((s.ctx cs).base.toNat + (s.ctx cs).pos.toNat) m < 2 ^ 64 →
    ∃ t d, exec (.rdlit cs) s = .next t ∧ t.rsp = some ⟨0#4, d⟩ ∧
      d.toNat = s.literalValue ((s.ctx cs).base.toNat + (s.ctx cs).pos.toNat) m ∧
      (t.ctx cs).pos.toNat = (s.ctx cs).pos.toNat + 5 * m ∧
      t.ctx cs = { s.ctx cs with pos := (t.ctx cs).pos } ∧ (∀ j, j ≠ cs → t.ctx j = s.ctx j) ∧
      t.fault = s.fault ∧ s.SameWorld t

/-! ## Faults -/

/-- 60_exceptions.md R84: after a fault every word, legal or not, is refused: the state is unchanged and the response is
`{FAULT, 0}`. -/
def Obligations.RefusedAfterFault : Prop :=
  (∀ (s : State) (w : Cmd) (ms : List HostMove), s.host = .command w :: ms → s.rsp = none → s.fault ≠ 0#4 →
    step s = .next { s with host := ms, rsp := some ⟨s.fault, 0#64⟩ }) ∧
  ∀ (s : State) (i : Instr), s.fault ≠ 0#4 → exec i s = .next { s with rsp := some ⟨s.fault, 0#64⟩ }

/-- 60_exceptions.md R81: exactly one outcome, the first that applies: refused, `IllegalCommand`, `InvalidCursor`, else
the command's own rule, which raises neither of those two. -/
def Obligations.OrderOfChecks : Prop :=
  ∀ (s : State) (i : Instr),
    (s.fault ≠ 0#4 → exec i s = .next { s with rsp := some ⟨s.fault, 0#64⟩ }) ∧
    (s.fault = 0#4 → ¬ i.WellFormed s.build →
      exec i s = .next { s with fault := 3#4, rsp := some ⟨3#4, 0#64⟩ }) ∧
    (s.fault = 0#4 → i.WellFormed s.build → (∃ cs ∈ i.source, (s.ctx cs).valid = false) →
      exec i s = .next { s with fault := 4#4, rsp := some ⟨4#4, 0#64⟩ }) ∧
    (s.Ready i → ∀ t, exec i s = .next t → t.fault ≠ 3#4 ∧ t.fault ≠ 4#4)

/-- 60_exceptions.md R82, R83: a fault changes `FAULT` to one of the five codes and answers `{code, 0}`; nothing else
changes, no context register in particular; so for a command, and for any word the host issues. -/
def Obligations.FaultEntryChangesFaultOnly : Prop :=
  (∀ (s t : State) (i : Instr), s.fault = 0#4 → exec i s = .next t → t.fault ≠ 0#4 →
    t.fault.toNat ≤ 5 ∧ t = { s with fault := t.fault, rsp := some ⟨t.fault, 0#64⟩ }) ∧
  ∀ (s t : State) (w : Cmd) (ms : List HostMove), s.host = .command w :: ms → s.rsp = none → s.fault = 0#4 →
    step s = .next t → t.fault ≠ 0#4 →
    t.fault.toNat ≤ 5 ∧ t = { s with host := ms, fault := t.fault, rsp := some ⟨t.fault, 0#64⟩ }

/-- 60_exceptions.md R78: with no earlier fault, `OutOfBounds` is raised exactly by a READ or SKIP with too few bits left
and a SLICE whose window does not fit, of the commands that pass the prologue. -/
def Obligations.OutOfBoundsExactly : Prop :=
  ∀ (s : State) (i : Instr), s.fault = 0#4 →
    ((∃ t, exec i s = .next t ∧ t.fault = 1#4) ↔ s.Ready i ∧ s.Shortage i)

/-- 10_state.md R21, 60_exceptions.md R77: with no earlier fault, `InvalidCursor` is raised exactly by the legal commands
whose source has `valid` = 0. -/
def Obligations.InvalidCursorExactly : Prop :=
  ∀ (s : State) (i : Instr), s.fault = 0#4 →
    ((∃ t, exec i s = .next t ∧ t.fault = 4#4) ↔ i.WellFormed s.build ∧ ∃ cs ∈ i.source, (s.ctx cs).valid = false)

/-- 41_literal_decoder.md R74: a literal that ends inside the view and is worth 2^64 or more raises `LiteralOverflow`;
the position does not move. -/
def Obligations.RdlitOverflows : Prop :=
  ∀ (s : State) (cs : CtxId) (m : Nat), s.Ready (.rdlit cs) → (s.ctx cs).Inside s.nbytes →
    s.LiteralEnds ((s.ctx cs).base.toNat + (s.ctx cs).pos.toNat) m →
    5 * m ≤ (s.ctx cs).len.toNat - (s.ctx cs).pos.toNat →
    2 ^ 64 ≤ s.literalValue ((s.ctx cs).base.toNat + (s.ctx cs).pos.toNat) m →
    exec (.rdlit cs) s = .next { s with fault := 5#4, rsp := some ⟨5#4, 0#64⟩ }

/-- 41_literal_decoder.md R72, 60_exceptions.md R79: when no complete group left in the view has flag 0, RDLIT raises
`Truncated`, unless the groups there are already worth 2^64: then `LiteralOverflow` is met first. -/
def Obligations.RdlitTruncated : Prop :=
  ∀ (s : State) (cs : CtxId), s.Ready (.rdlit cs) → (s.ctx cs).Inside s.nbytes →
    s.NoGroupEnds ((s.ctx cs).base.toNat + (s.ctx cs).pos.toNat)
      (((s.ctx cs).len.toNat - (s.ctx cs).pos.toNat) / 5) →
    exec (.rdlit cs) s =
      if s.literalValue ((s.ctx cs).base.toNat + (s.ctx cs).pos.toNat)
          (((s.ctx cs).len.toNat - (s.ctx cs).pos.toNat) / 5) < 2 ^ 64 then
        .next { s with fault := 2#4, rsp := some ⟨2#4, 0#64⟩ }
      else .next { s with fault := 5#4, rsp := some ⟨5#4, 0#64⟩ }

/-- 41_literal_decoder.md R70, 30_encoding.md R46 (b): without the literal decoder RDLIT is illegal and so is its word,
whatever the context; a build that differs in `HAS_RDLIT` alone decodes every word of another opcode alike. -/
def Obligations.RdlitAbsentIsIllegal : Prop :=
  (∀ (s : State) (cs : CtxId), s.build.hasRdlit = false → s.fault = 0#4 →
    exec (.rdlit cs) s = .next { s with fault := 3#4, rsp := some ⟨3#4, 0#64⟩ }) ∧
  ∀ (b : Build) (w : Cmd), b.hasRdlit = false →
    (w.extractLsb' 72 8 = 0x07#8 → ∃ r, decode b w = .error r) ∧
    (w.extractLsb' 72 8 ≠ 0x07#8 → decode { b with hasRdlit := true } w = decode b w)

/-- 70_reset_and_hazards.md R96: on the state a reset leaves, with any build and any launch, a command other than OPEN
raises `InvalidCursor`, or `IllegalCommand` if it is illegal. -/
def Obligations.FirstCommandIsOpen : Prop :=
  ∀ (s : State) (i : Instr), (∀ c : CtxId, (s.ctx c).valid = false) → s.fault = 0#4 → (∀ cd, i ≠ .openView cd) →
    (i.WellFormed s.build → exec i s = .next { s with fault := 4#4, rsp := some ⟨4#4, 0#64⟩ }) ∧
    (¬ i.WellFormed s.build → exec i s = .next { s with fault := 3#4, rsp := some ⟨3#4, 0#64⟩ })

/-! ## What is left unchanged -/

/-- 40_cursor_commands.md R65: REM and POS write no state but for a fault; they leave `FAULT` at 0 exactly when they pass
the prologue; a fault they raise is recorded like any other, in `FAULT` and in the response; and one that completes does
not change what any later command does or answers. -/
def Obligations.QueriesArePure : Prop :=
  ∀ (s t : State) (cs : CtxId) (q : Instr), q = .rem cs ∨ q = .pos cs → exec q s = .next t →
    t = { s with fault := t.fault, rsp := t.rsp } ∧ (t.fault = 0#4 ↔ s.Ready q) ∧
    (t.fault ≠ 0#4 → t.rsp = some ⟨t.fault, 0#64⟩) ∧
    (t.fault = 0#4 → t.fault = s.fault ∧ ∀ i : Instr, exec i t = exec i s)

/-- 10_state.md R13, 40_cursor_commands.md R66: the frame of READ, SKIP and RDLIT. Of the contexts they change at most
the position of `c[cs]`; `base`, `len`, `valid`, every other context, the launch and every byte of the buffer stay. -/
def Obligations.MovingCommandsFrame : Prop :=
  ∀ (s t : State) (i : Instr) (cs : CtxId), (∃ w, i = .read cs w) ∨ (∃ n, i = .skip cs n) ∨ i = .rdlit cs →
    exec i s = .next t →
    t.ctx cs = { s.ctx cs with pos := (t.ctx cs).pos } ∧ (∀ j, j ≠ cs → t.ctx j = s.ctx j) ∧
      (t.fault = s.fault ∨ s.fault = 0#4) ∧ s.SameWorld t

/-- 10_state.md R13, 40_cursor_commands.md R66: the frame of OPEN and SLICE. Of the contexts they change at most the
destination; when they do not complete, not even that. -/
def Obligations.MakingCommandsFrame : Prop :=
  ∀ (s t : State) (i : Instr) (cd : CtxId), i = .openView cd ∨ (∃ cs start len, i = .slice cd cs start len) →
    exec i s = .next t →
    (∀ j, j ≠ cd → t.ctx j = s.ctx j) ∧ (t.fault ≠ 0#4 → t.ctx cd = s.ctx cd) ∧
      (t.fault = s.fault ∨ s.fault = 0#4) ∧ s.SameWorld t

/-- 20_memory.md R26, 70_reset_and_hazards.md R97: no step but a reset changes the build, `NBYTES` or a byte of the
buffer. -/
def Obligations.BufferConstantInLaunch : Prop :=
  ∀ s t : State, step s = .next t → s.NoResetNext →
    t.build = s.build ∧ t.nbytes = s.nbytes ∧ t.mem = s.mem ∧ ∀ a, t.memRead a = s.memRead a

/-- 20_memory.md R30, 40_cursor_commands.md R66: READs of one width through two views that stand at the same stream bit
answer the same. -/
def Obligations.OverlappingViewsAgree : Prop :=
  ∀ (s t u : State) (i j : CtxId) (w : Offset), exec (.read i w) s = .next t → exec (.read j w) s = .next u →
    t.fault = 0#4 → u.fault = 0#4 →
    (s.ctx i).base.toNat + (s.ctx i).pos.toNat = (s.ctx j).base.toNat + (s.ctx j).pos.toNat → t.rsp = u.rsp

/-! ## Invariants -/

/-- 10_state.md R14, R22: the invariant holds at reset. -/
def Obligations.InvAtReset : Prop := State.reset.Inv

/-- 10_state.md R14: every step keeps the invariant: every valid view lies in the buffer with its position in the view,
the buffer stays canonical and inside `NBYTES`, `FAULT` and every response stay among the legal values. -/
def Obligations.StepKeepsInv : Prop := ∀ s t : State, s.Inv → step s = .next t → t.Inv

/-- 10_state.md R14, 20_memory.md R39, 70_reset_and_hazards.md R102: in a state that meets the invariant a step whose
host keeps its duty of R95 always answers a next state: no command stops, and none asks for a byte outside the buffer. -/
def Obligations.InvStateSteps : Prop := ∀ s : State, s.Inv → s.NextLaunchFits → ∃ t, step s = .next t

/-- 10_state.md R15: no command moves a position back, but OPEN and SLICE, which write the register whole and start it at
0. READ moves it by `w`, at least 1, SKIP by `n`, RDLIT by a positive multiple of 5; REM, POS and a command that does not
complete leave the register as it is; `valid`, `base` and `len` stay in any case. -/
def Obligations.PositionNeverDecreases : Prop :=
  ∀ (s t : State) (i : Instr) (j : CtxId), exec i s = .next t →
    (i.dest = some j → t.fault = 0#4 → (t.ctx j).pos = 0#32) ∧
    (t.fault ≠ 0#4 ∨ i = .rem j ∨ i = .pos j → t.ctx j = s.ctx j) ∧
    (i.dest ≠ some j →
      (s.ctx j).pos.toNat ≤ (t.ctx j).pos.toNat ∧ t.ctx j = { s.ctx j with pos := (t.ctx j).pos }) ∧
    (t.fault = 0#4 →
      (∀ w, i = .read j w → 1 ≤ w.toNat ∧ (t.ctx j).pos.toNat = (s.ctx j).pos.toNat + w.toNat) ∧
      (∀ n, i = .skip j n → (t.ctx j).pos.toNat = (s.ctx j).pos.toNat + n.toNat) ∧
      (i = .rdlit j → ∃ m, 1 ≤ m ∧ (t.ctx j).pos.toNat = (s.ctx j).pos.toNat + 5 * m))

/-- 60_exceptions.md R84, R85, 70_reset_and_hazards.md R93: only a reset clears `FAULT` or changes its code, and until
then no context changes. -/
def Obligations.FaultStickyUntilReset : Prop :=
  ∀ s t : State, step s = .next t → s.NoResetNext → s.fault ≠ 0#4 → t.fault = s.fault ∧ t.ctxs = s.ctxs

/-- 70_reset_and_hazards.md R93: only a reset makes a valid context invalid. -/
def Obligations.OnlyResetInvalidates : Prop :=
  ∀ (s t : State) (j : CtxId), step s = .next t → s.NoResetNext → (s.ctx j).valid = true → (t.ctx j).valid = true

/-- 60_exceptions.md R84: in a launch, a response with `status` 0 certifies that no command before it has faulted: `FAULT`
was 0 in every earlier state of the launch. -/
def Obligations.SuccessCertifiesHistory : Prop :=
  ∀ (s u t : State) (m n : Nat) (d : Data), s.Inv → (∀ bytes, HostMove.reset bytes ∉ s.host) →
    Host.Core.run Sys2Proof.core m s = .next u → Host.Core.run Sys2Proof.core n u = .next t →
    t.rsp = some ⟨0#4, d⟩ → u.fault = 0#4

/-- 10_state.md R21, 93_implementation_defined.md U10: `base`, `len` and `pos` of a context that is not valid cannot be
observed. From two states that differ in those alone a step leads to two such states (equal responses among the rest),
or stops in both. -/
def Obligations.InvalidFieldsUnobservable : Prop :=
  ∀ s t : State, s.Indistinct t →
    (∀ s', step s = .next s' → ∃ t', step t = .next t' ∧ s'.Indistinct t') ∧
    (∀ r, step s = .fault r → step t = .fault r) ∧ ∀ r, step s = .refused r → step t = .refused r

/-- 10_state.md R24: what a command does and answers depends on the BCU's state and the launch alone, not on the host's
later moves, the responses taken, or a response still standing. -/
def Obligations.CommandIgnoresHost : Prop :=
  ∀ (s t : State) (i : Instr) (hs : List HostMove) (rs : List Rsp) (q : Option Rsp), exec i s = .next t →
    exec i { s with host := hs, responses := rs, rsp := q } = .next { t with host := hs, responses := rs }

/-! ## Laws across commands -/

/-- 20_memory.md R27, R28: a field inside the buffer is the sum over its stream bits, below `2^w`, and a field of
`w1 + w2` bits is its first `w1` bits times `2^w2` plus the rest; no field reaches past the buffer. -/
def Obligations.FieldIsBitSum : Prop :=
  ∀ (s : State) (k w : Nat),
    (k + w ≤ 8 * s.nbytes.toNat → s.field k w = some (s.fieldSum k w) ∧ s.fieldSum k w < 2 ^ w) ∧
    (0 < w → 8 * s.nbytes.toNat < k + w → s.field k w = none) ∧
    ∀ w1 w2, w = w1 + w2 → s.fieldSum k w = s.fieldSum k w1 * 2 ^ w2 + s.fieldSum (k + w1) w2

/-- 20_memory.md R33, 10_state.md R14: the window a SLICE makes lies in the window of its source, and so in the
buffer. -/
def Obligations.SliceContainment : Prop :=
  ∀ (s t : State) (cd cs : CtxId) (start len : Offset), (s.ctx cs).Inside s.nbytes →
    exec (.slice cd cs start len) s = .next t → t.fault = 0#4 →
    (s.ctx cs).base.toNat ≤ (t.ctx cd).base.toNat ∧
    (t.ctx cd).base.toNat + (t.ctx cd).len.toNat ≤ (s.ctx cs).base.toNat + (s.ctx cs).len.toNat ∧
    (t.ctx cd).Inside t.nbytes

/-- 40_cursor_commands.md R60, R66, 20_memory.md R28: a READ through a fresh sub-view answers the bits of its source from
`start` on, and moves the sub-view only. -/
def Obligations.SubViewReadsSourceBits : Prop :=
  ∀ (s t : State) (cd cs : CtxId) (start len w : Offset), (s.ctx cs).Inside s.nbytes →
    exec (.slice cd cs start len) s = .next t → t.fault = 0#4 → 1 ≤ w.toNat → w.toNat ≤ 64 → w.toNat ≤ len.toNat →
    ∃ u d, exec (.read cd w) t = .next u ∧ u.rsp = some ⟨0#4, d⟩ ∧
      d.toNat = s.fieldSum ((s.ctx cs).base.toNat + start.toNat) w.toNat ∧ (cd ≠ cs → u.ctx cs = s.ctx cs)

/-- 40_cursor_commands.md R62: `READ cs, w1` then `READ cs, w2` leaves the state of `READ cs, w1 + w2`, whose answer is
`v1 * 2^w2 + v2`; the pair faults exactly when the single READ does, and when only the second fails, the first has
advanced `pos` by `w1` and answered. -/
def Obligations.ReadComposition : Prop :=
  ∀ (s : State) (cs : CtxId) (w1 w2 : Offset), s.Ready (.read cs (w1 + w2)) → (s.ctx cs).Inside s.nbytes →
    1 ≤ w1.toNat → 1 ≤ w2.toNat → w1.toNat + w2.toNat ≤ 64 →
    let room := (s.ctx cs).len.toNat - (s.ctx cs).pos.toNat
    (w1.toNat + w2.toNat ≤ room →
      ∃ s1 s2 v1 v2 v, exec (.read cs w1) s = .next s1 ∧ s1.rsp = some ⟨0#4, v1⟩ ∧
        exec (.read cs w2) s1 = .next s2 ∧ s2.rsp = some ⟨0#4, v2⟩ ∧
        exec (.read cs (w1 + w2)) s = .next { s2 with rsp := some ⟨0#4, v⟩ } ∧
        v.toNat = v1.toNat * 2 ^ w2.toNat + v2.toNat) ∧
    (w1.toNat ≤ room → room < w1.toNat + w2.toNat →
      exec (.read cs (w1 + w2)) s = .next { s with fault := 1#4, rsp := some ⟨1#4, 0#64⟩ } ∧
      ∃ s1 v1, exec (.read cs w1) s = .next s1 ∧ s1.rsp = some ⟨0#4, v1⟩ ∧
        (s1.ctx cs).pos.toNat = (s.ctx cs).pos.toNat + w1.toNat ∧
        exec (.read cs w2) s1 = .next { s1 with fault := 1#4, rsp := some ⟨1#4, 0#64⟩ }) ∧
    (room < w1.toNat →
      exec (.read cs (w1 + w2)) s = .next { s with fault := 1#4, rsp := some ⟨1#4, 0#64⟩ } ∧
      exec (.read cs w1) s = .next { s with fault := 1#4, rsp := some ⟨1#4, 0#64⟩ })

/-- 70_reset_and_hazards.md R98: the order of SLICE and of the SKIP that advances its source does not matter. -/
def Obligations.SliceAndSkipCommute : Prop :=
  ∀ (s : State) (cd cs : CtxId) (start len n : Offset), cd ≠ cs → s.Ready (.slice cd cs start len) →
    start.toNat + len.toNat ≤ (s.ctx cs).len.toNat → n.toNat ≤ (s.ctx cs).len.toNat - (s.ctx cs).pos.toNat →
    ∃ t1 u1 t, exec (.slice cd cs start len) s = .next t1 ∧ exec (.skip cs n) t1 = .next t ∧
      exec (.skip cs n) s = .next u1 ∧ exec (.slice cd cs start len) u1 = .next t ∧ t.fault = 0#4

/-- 40_cursor_commands.md R64: SKIP leaves the state of any run of READs with widths 1 to 64 that sum to `n`, and faults
exactly when the run does; on a fault SKIP leaves the contexts as they were, and the run has advanced by its first `k`
READs, which fit; the READ after them does not. -/
def Obligations.SkipIsRunOfReads : Prop :=
  ∀ (s : State) (cs : CtxId) (n : Offset) (ws : List Offset), s.Ready (.skip cs n) → (s.ctx cs).Inside s.nbytes →
    (∀ w ∈ ws, 1 ≤ w.toNat ∧ w.toNat ≤ 64) → (ws.map BitVec.toNat).sum = n.toNat →
    ∃ t u, exec (.skip cs n) s = .next t ∧ readAll cs ws s = .next u ∧ s.SameWorld t ∧ s.SameWorld u ∧
      t.fault = u.fault ∧ (t.fault = 0#4 → t.ctxs = u.ctxs) ∧
      (t.fault ≠ 0#4 → t.ctxs = s.ctxs ∧ ∃ k, k < ws.length ∧
        ((ws.take k).map BitVec.toNat).sum ≤ (s.ctx cs).len.toNat - (s.ctx cs).pos.toNat ∧
        (s.ctx cs).len.toNat - (s.ctx cs).pos.toNat < ((ws.take (k + 1)).map BitVec.toNat).sum ∧
        (u.ctx cs).pos.toNat = (s.ctx cs).pos.toNat + ((ws.take k).map BitVec.toNat).sum)

/-- 41_literal_decoder.md R75: when RDLIT completes, the host's own loop of `READ cs, 5` ends too, with the same value
and the same contexts. -/
def Obligations.RdlitIsReadLoop : Prop :=
  ∀ (s t : State) (cs : CtxId) (d : Data), (s.ctx cs).Inside s.nbytes → exec (.rdlit cs) s = .next t →
    t.rsp = some ⟨0#4, d⟩ →
    ∃ n u, hostLiteral cs n 0 s = some (d.toNat, u) ∧ u.ctxs = t.ctxs ∧ u.fault = t.fault

/-- 41_literal_decoder.md R73: RDLIT completes ONLY on a literal that ends inside the view and is worth less than
2^64. -/
def Obligations.RdlitCompletesOnlyOnLiteral : Prop :=
  ∀ (s t : State) (cs : CtxId), (s.ctx cs).Inside s.nbytes → exec (.rdlit cs) s = .next t → t.fault = 0#4 →
    ∃ m, s.LiteralEnds ((s.ctx cs).base.toNat + (s.ctx cs).pos.toNat) m ∧
      5 * m ≤ (s.ctx cs).len.toNat - (s.ctx cs).pos.toNat ∧
      s.literalValue ((s.ctx cs).base.toNat + (s.ctx cs).pos.toNat) m < 2 ^ 64
end

