-- ==== Sys2Proof/Laws/Encoding.lean ====
section
/-!
SUPPORT. The fields of a word (spec/30_encoding.md R41) and the operand conditions (R46).
-/

namespace Sys2Proof

/-- Cutting a word that was put together gives its fields back. -/
@[simp] theorem splitWord_joinWord (f : Fields) : splitWord (joinWord f) = f := by
  obtain ⟨op, cd, cs, a, b⟩ := f
  have bits (lo n : Nat) (i : Nat) : ((joinWord ⟨op, cd, cs, a, b⟩).extractLsb' lo n).getLsbD i =
      (decide (i < n) && (op ++ cd ++ cs ++ a ++ b).getLsbD (lo + i)) := BitVec.getLsbD_extractLsb' ..
  simp only [BitVec.getLsbD_append] at bits
  simp only [splitWord, Fields.mk.injEq]
  refine ⟨?_, ?_, ?_, ?_, ?_⟩ <;>
    · refine BitVec.eq_of_getLsbD_eq fun i hi => ?_
      rw [bits]
      split_ifs <;> first | omega | (rw [decide_eq_true hi, Bool.true_and]; congr 1; omega)

/-- A word is its fields put together. -/
theorem joinWord_splitWord (w : Cmd) : joinWord (splitWord w) = w := by
  have bits (f : Fields) (i : Nat) : (joinWord f).getLsbD i = (f.op ++ f.cd ++ f.cs ++ f.a ++ f.b).getLsbD i := rfl
  simp only [BitVec.getLsbD_append] at bits
  refine BitVec.eq_of_getLsbD_eq fun i hi => ?_
  simp only [bits, splitWord, BitVec.getLsbD_extractLsb']
  split_ifs <;> (rw [decide_eq_true (by omega), Bool.true_and]; congr 1; omega)

/-- The operand conditions of R46 (b), (d), (e) hold exactly of the commands the build has. -/
theorem operandFault_eq_none_iff (b : Build) (i : Instr) : operandFault b i = none ↔ i.WellFormed b := by
  cases i with
  | openView cd => simp [operandFault, Instr.WellFormed]
  | read cs w => simp [operandFault, Instr.WellFormed]; split_ifs <;> simp <;> omega
  | rem cs => simp [operandFault, Instr.WellFormed]
  | pos cs => simp [operandFault, Instr.WellFormed]
  | slice cd cs start len => simp [operandFault, Instr.WellFormed]
  | skip cs n => simp [operandFault, Instr.WellFormed]
  | rdlit cs => simp [operandFault, Instr.WellFormed]; cases b.hasRdlit <;> simp

theorem operandFault_of_wellFormed {b : Build} {i : Instr} (h : i.WellFormed b) : operandFault b i = none :=
  (operandFault_eq_none_iff b i).mpr h

/-- The fields of a command are those of no other. -/
theorem commandOf_fieldsOf (i : Instr) : commandOf (fieldsOf i) = .ok i := by
  cases i <;> simp [commandOf, fieldsOf, opcodeOf, unusedZero]

/-- What the opcode map can answer: the command whose fields these are, or one of two reasons. -/
theorem commandOf_ok {f : Fields} {i : Instr} (h : commandOf f = .ok i) : f = fieldsOf i := by
  obtain ⟨op, cd, cs, a, b⟩ := f
  unfold commandOf unusedZero at h
  split_ifs at h <;> simp_all <;> subst h <;> simp_all [fieldsOf, opcodeOf]

end Sys2Proof
end

