-- ==== Sys2Proof/Laws/State.lean ====
section
/-!
SUPPORT. One lemma per field per update, so that no later proof unfolds a record update; the context file read after a
write; what each update leaves of the reads of the buffer.
-/

namespace Sys2Proof.Machine

open Sys2Proof

variable (s : State)

@[simp] theorem State.setCtx_build (i : CtxId) (c : Ctx) : (s.setCtx i c).build = s.build := rfl
@[simp] theorem State.setCtx_nbytes (i : CtxId) (c : Ctx) : (s.setCtx i c).nbytes = s.nbytes := rfl
@[simp] theorem State.setCtx_mem (i : CtxId) (c : Ctx) : (s.setCtx i c).mem = s.mem := rfl
@[simp] theorem State.setCtx_ctxs (i : CtxId) (c : Ctx) : (s.setCtx i c).ctxs = s.ctxs.set i.toNat c := rfl
@[simp] theorem State.setCtx_fault (i : CtxId) (c : Ctx) : (s.setCtx i c).fault = s.fault := rfl
@[simp] theorem State.setCtx_rsp (i : CtxId) (c : Ctx) : (s.setCtx i c).rsp = s.rsp := rfl
@[simp] theorem State.setCtx_host (i : CtxId) (c : Ctx) : (s.setCtx i c).host = s.host := rfl
@[simp] theorem State.setCtx_responses (i : CtxId) (c : Ctx) : (s.setCtx i c).responses = s.responses := rfl

@[simp] theorem State.setPos_build (i : CtxId) (p : Offset) : (s.setPos i p).build = s.build := rfl
@[simp] theorem State.setPos_nbytes (i : CtxId) (p : Offset) : (s.setPos i p).nbytes = s.nbytes := rfl
@[simp] theorem State.setPos_mem (i : CtxId) (p : Offset) : (s.setPos i p).mem = s.mem := rfl
@[simp] theorem State.setPos_ctxs (i : CtxId) (p : Offset) : (s.setPos i p).ctxs = s.ctxs.set i.toNat { s.ctx i with pos := p } := rfl
@[simp] theorem State.setPos_fault (i : CtxId) (p : Offset) : (s.setPos i p).fault = s.fault := rfl
@[simp] theorem State.setPos_rsp (i : CtxId) (p : Offset) : (s.setPos i p).rsp = s.rsp := rfl
@[simp] theorem State.setPos_host (i : CtxId) (p : Offset) : (s.setPos i p).host = s.host := rfl
@[simp] theorem State.setPos_responses (i : CtxId) (p : Offset) : (s.setPos i p).responses = s.responses := rfl

@[simp] theorem State.answer_build (st : Status) (d : Data) : (s.answer st d).build = s.build := rfl
@[simp] theorem State.answer_nbytes (st : Status) (d : Data) : (s.answer st d).nbytes = s.nbytes := rfl
@[simp] theorem State.answer_mem (st : Status) (d : Data) : (s.answer st d).mem = s.mem := rfl
@[simp] theorem State.answer_ctxs (st : Status) (d : Data) : (s.answer st d).ctxs = s.ctxs := rfl
@[simp] theorem State.answer_fault (st : Status) (d : Data) : (s.answer st d).fault = s.fault := rfl
@[simp] theorem State.answer_rsp (st : Status) (d : Data) : (s.answer st d).rsp = some ⟨st, d⟩ := rfl
@[simp] theorem State.answer_host (st : Status) (d : Data) : (s.answer st d).host = s.host := rfl
@[simp] theorem State.answer_responses (st : Status) (d : Data) : (s.answer st d).responses = s.responses := rfl

@[simp] theorem State.respond_build (d : Data) : (s.respond d).build = s.build := rfl
@[simp] theorem State.respond_nbytes (d : Data) : (s.respond d).nbytes = s.nbytes := rfl
@[simp] theorem State.respond_mem (d : Data) : (s.respond d).mem = s.mem := rfl
@[simp] theorem State.respond_ctxs (d : Data) : (s.respond d).ctxs = s.ctxs := rfl
@[simp] theorem State.respond_fault (d : Data) : (s.respond d).fault = s.fault := rfl
@[simp] theorem State.respond_rsp (d : Data) : (s.respond d).rsp = some ⟨0#4, d⟩ := rfl
@[simp] theorem State.respond_host (d : Data) : (s.respond d).host = s.host := rfl
@[simp] theorem State.respond_responses (d : Data) : (s.respond d).responses = s.responses := rfl

@[simp] theorem State.raise_build (x : BcuFault) : (s.raise x).build = s.build := rfl
@[simp] theorem State.raise_nbytes (x : BcuFault) : (s.raise x).nbytes = s.nbytes := rfl
@[simp] theorem State.raise_mem (x : BcuFault) : (s.raise x).mem = s.mem := rfl
@[simp] theorem State.raise_ctxs (x : BcuFault) : (s.raise x).ctxs = s.ctxs := rfl
@[simp] theorem State.raise_fault (x : BcuFault) : (s.raise x).fault = x.code := rfl
@[simp] theorem State.raise_rsp (x : BcuFault) : (s.raise x).rsp = some ⟨x.code, 0#64⟩ := rfl
@[simp] theorem State.raise_host (x : BcuFault) : (s.raise x).host = s.host := rfl
@[simp] theorem State.raise_responses (x : BcuFault) : (s.raise x).responses = s.responses := rfl

@[simp] theorem State.refuse_build : (s.refuse).build = s.build := rfl
@[simp] theorem State.refuse_nbytes : (s.refuse).nbytes = s.nbytes := rfl
@[simp] theorem State.refuse_mem : (s.refuse).mem = s.mem := rfl
@[simp] theorem State.refuse_ctxs : (s.refuse).ctxs = s.ctxs := rfl
@[simp] theorem State.refuse_fault : (s.refuse).fault = s.fault := rfl
@[simp] theorem State.refuse_rsp : (s.refuse).rsp = some ⟨s.fault, 0#64⟩ := rfl
@[simp] theorem State.refuse_host : (s.refuse).host = s.host := rfl
@[simp] theorem State.refuse_responses : (s.refuse).responses = s.responses := rfl

@[simp] theorem State.restart_build (n : ByteCount) (m : Memory) : (s.restart n m).build = s.build := rfl
@[simp] theorem State.restart_nbytes (n : ByteCount) (m : Memory) : (s.restart n m).nbytes = n := rfl
@[simp] theorem State.restart_mem (n : ByteCount) (m : Memory) : (s.restart n m).mem = m := rfl
@[simp] theorem State.restart_ctxs (n : ByteCount) (m : Memory) : (s.restart n m).ctxs = State.reset.ctxs := rfl
@[simp] theorem State.restart_fault (n : ByteCount) (m : Memory) : (s.restart n m).fault = 0#4 := rfl
@[simp] theorem State.restart_rsp (n : ByteCount) (m : Memory) : (s.restart n m).rsp = none := rfl
@[simp] theorem State.restart_host (n : ByteCount) (m : Memory) : (s.restart n m).host = s.host := rfl
@[simp] theorem State.restart_responses (n : ByteCount) (m : Memory) : (s.restart n m).responses = s.responses := rfl

@[simp] theorem State.issueNext_build (w : Cmd) : (s.issueNext w).build = s.build := rfl
@[simp] theorem State.issueNext_nbytes (w : Cmd) : (s.issueNext w).nbytes = s.nbytes := rfl
@[simp] theorem State.issueNext_mem (w : Cmd) : (s.issueNext w).mem = s.mem := rfl
@[simp] theorem State.issueNext_ctxs (w : Cmd) : (s.issueNext w).ctxs = s.ctxs := rfl
@[simp] theorem State.issueNext_fault (w : Cmd) : (s.issueNext w).fault = s.fault := rfl
@[simp] theorem State.issueNext_rsp (w : Cmd) : (s.issueNext w).rsp = none := rfl
@[simp] theorem State.issueNext_host (w : Cmd) : (s.issueNext w).host = .command w :: s.host := rfl
@[simp] theorem State.issueNext_responses (w : Cmd) : (s.issueNext w).responses = s.responses := rfl

/-- Read after write of the context file. -/
theorem State.ctx_setCtx (i j : CtxId) (c : Ctx) : (s.setCtx i c).ctx j = if i = j then c else s.ctx j := by
  simp only [State.ctx, State.setCtx_ctxs, Vector.getElem_set]
  by_cases h : i = j
  · simp [h]
  · simp [h, BitVec.toNat_inj]

@[simp] theorem State.ctx_setCtx_same (i : CtxId) (c : Ctx) : (s.setCtx i c).ctx i = c := by
  simp [State.ctx_setCtx]

theorem State.ctx_setCtx_other {i j : CtxId} (h : j ≠ i) (c : Ctx) : (s.setCtx i c).ctx j = s.ctx j := by
  simp [State.ctx_setCtx, h.symm]

@[simp] theorem State.ctx_setPos_same (i : CtxId) (p : Offset) :
    (s.setPos i p).ctx i = { s.ctx i with pos := p } := s.ctx_setCtx_same i _

theorem State.ctx_setPos_other {i j : CtxId} (h : j ≠ i) (p : Offset) : (s.setPos i p).ctx j = s.ctx j :=
  s.ctx_setCtx_other h _

@[simp] theorem State.ctx_answer (st : Status) (d : Data) (i : CtxId) : (s.answer st d).ctx i = s.ctx i := rfl
@[simp] theorem State.ctx_respond (d : Data) (i : CtxId) : (s.respond d).ctx i = s.ctx i := rfl
@[simp] theorem State.ctx_raise (x : BcuFault) (i : CtxId) : (s.raise x).ctx i = s.ctx i := rfl
@[simp] theorem State.ctx_refuse (i : CtxId) : (s.refuse).ctx i = s.ctx i := rfl
@[simp] theorem State.ctx_issueNext (w : Cmd) (i : CtxId) : (s.issueNext w).ctx i = s.ctx i := rfl
@[simp] theorem State.ctx_restart (n : ByteCount) (m : Memory) (i : CtxId) : (s.restart n m).ctx i = Ctx.reset := by
  simp [State.ctx, State.reset]

@[simp] theorem State.ctx_reset (i : CtxId) : State.reset.ctx i = Ctx.reset := by
  simp [State.ctx, State.reset]

/-- The context file is its contexts. -/
theorem State.ctxs_ext {s t : State} (h : ∀ i : CtxId, t.ctx i = s.ctx i) : t.ctxs = s.ctxs := by
  refine Vector.ext fun i hi => ?_
  have := h (BitVec.ofNat 4 i)
  simpa [State.ctx, Nat.mod_eq_of_lt hi] using this

@[simp] theorem State.memRead_setCtx (i : CtxId) (c : Ctx) (k : Nat) : (s.setCtx i c).memRead k = s.memRead k := rfl
@[simp] theorem State.memRead_setPos (i : CtxId) (p : Offset) (k : Nat) : (s.setPos i p).memRead k = s.memRead k := rfl
@[simp] theorem State.memRead_answer (st : Status) (d : Data) (k : Nat) : (s.answer st d).memRead k = s.memRead k := rfl
@[simp] theorem State.memRead_respond (d : Data) (k : Nat) : (s.respond d).memRead k = s.memRead k := rfl
@[simp] theorem State.memRead_raise (x : BcuFault) (k : Nat) : (s.raise x).memRead k = s.memRead k := rfl
@[simp] theorem State.memRead_refuse (k : Nat) : (s.refuse).memRead k = s.memRead k := rfl
@[simp] theorem State.memRead_issueNext (w : Cmd) (k : Nat) : (s.issueNext w).memRead k = s.memRead k := rfl

/-- Stream bits depend on the launch alone. -/
theorem State.streamBit_congr {s t : State} (hn : t.nbytes = s.nbytes) (hm : t.mem = s.mem) (k : Nat) :
    t.streamBit k = s.streamBit k := by
  simp [State.streamBit, State.memRead, hn, hm]

/-- Fields depend on the launch alone. -/
theorem State.field_congr {s t : State} (hn : t.nbytes = s.nbytes) (hm : t.mem = s.mem) (k w : Nat) :
    t.field k w = s.field k w := by
  induction w with
  | zero => rfl
  | succ w ih => simp [State.field, ih, State.streamBit_congr hn hm]

end Sys2Proof.Machine
end

