-- ==== Sys2Proof/Laws/Field.lean ====
section
/-!
SUPPORT. What reading stream bits and fields can answer (spec/20_memory.md R27, R28, R31).
-/

namespace Sys2Proof.Machine

open Sys2Proof

variable (s : State)

theorem State.memRead_inside {a : Nat} (h : a < s.nbytes.toNat) : s.memRead a = some (lookup s.mem a) := if_pos h

theorem State.memRead_outside {a : Nat} (h : s.nbytes.toNat ≤ a) : s.memRead a = none := if_neg (Nat.not_lt.mpr h)

theorem State.bitAt_le_one (k : Nat) : s.bitAt k ≤ 1 := Bool.toNat_le _

/-- A stream bit of the buffer. -/
theorem State.streamBit_inside {k : Nat} (h : k < 8 * s.nbytes.toNat) :
    ∃ b, s.streamBit k = some b ∧ b.toNat = s.bitAt k := by
  have hk : k / 8 < s.nbytes.toNat := by omega
  exact ⟨_, by rw [State.streamBit, s.memRead_inside hk]; rfl, by simp [State.bitAt, s.memRead_inside hk]⟩

/-- No stream bit exists past the buffer's end. -/
theorem State.streamBit_outside {k : Nat} (h : 8 * s.nbytes.toNat ≤ k) : s.streamBit k = none := by
  have hk : s.nbytes.toNat ≤ k / 8 := by omega
  simp [State.streamBit, s.memRead_outside hk]

/-- The sum of R28, one bit longer. -/
theorem State.fieldSum_succ (k w : Nat) : s.fieldSum k (w + 1) = 2 * s.fieldSum k w + s.bitAt (k + w) := by
  simp only [State.fieldSum, Finset.sum_range_succ, Finset.mul_sum]
  congr 1
  · refine Finset.sum_congr rfl fun i hi => ?_
    have hi := Finset.mem_range.mp hi
    rw [show w + 1 - 1 - i = w - 1 - i + 1 by omega, pow_succ]
    ring
  · simp

theorem State.fieldSum_lt (k w : Nat) : s.fieldSum k w < 2 ^ w := by
  induction w with
  | zero => simp [State.fieldSum]
  | succ w ih =>
    have := s.bitAt_le_one (k + w)
    rw [s.fieldSum_succ, pow_succ]
    omega

/-- A field of the buffer exists, and is below `2^w`. -/
theorem State.field_inside {k w : Nat} (h : k + w ≤ 8 * s.nbytes.toNat) : ∃ v, s.field k w = some v ∧ v < 2 ^ w := by
  induction w with
  | zero => exact ⟨0, rfl, by simp⟩
  | succ w ih =>
    obtain ⟨v, hv, hlt⟩ := ih (by omega)
    obtain ⟨b, hb, -⟩ := s.streamBit_inside (k := k + w) (by omega)
    refine ⟨2 * v + b.toNat, by simp [State.field, hv, hb], ?_⟩
    have := Bool.toNat_le b
    rw [pow_succ]
    omega

/-- What `withField` does: it continues with the field or stops outside the buffer. -/
theorem State.withField_cases (k w : Nat) (f : Nat → Result) :
    (∃ v, s.field k w = some v ∧ s.withField k w f = f v) ∨
      (s.field k w = none ∧ s.withField k w f = .fault .outsideBuffer) := by
  unfold State.withField
  cases s.field k w <;> simp

theorem State.withField_some {k w v : Nat} (h : s.field k w = some v) (f : Nat → Result) : s.withField k w f = f v := by
  simp [State.withField, h]

end Sys2Proof.Machine
end

