-- ==== Sys2Proof/Laws/Ops.lean ====
section
/-!
SUPPORT. What each shared operation can do, said once: the prologue (spec/40_cursor_commands.md R55), the host's next
move (70 R104), the literal loop (41 R72).
-/

namespace Sys2Proof.Machine

open Sys2Proof

variable (s : State)

theorem State.legal_iff (i : Instr) : s.legal i = true ↔ i.WellFormed s.build := by
  simp [State.legal, operandFault_eq_none_iff]

theorem BcuFault.code_ne_zero (x : BcuFault) : x.code ≠ 0#4 := by cases x <;> decide

theorem BcuFault.code_le_five (x : BcuFault) : x.code.toNat ≤ 5 := by cases x <;> decide

theorem BcuFault.code_injective {x y : BcuFault} (h : x.code = y.code) : x = y := by
  cases x <;> cases y <;> first | rfl | exact absurd h (by decide)

/-! The prologue's outcomes. -/

theorem State.prologue_refuses (h : s.fault ≠ 0#4) (legal : Bool) (k : Result) :
    s.prologue legal k = .next s.refuse := if_pos h

theorem State.prologue_illegal (h : s.fault = 0#4) (k : Result) :
    s.prologue false k = .next (s.raise .illegalCommand) := by
  simp [State.prologue, h]

theorem State.prologue_passes (h : s.fault = 0#4) (k : Result) : s.prologue true k = k := by
  simp [State.prologue, h]

/-- All the prologue can answer, for a command. -/
theorem State.prologue_cases (i : Instr) (k : Result) :
    (s.fault ≠ 0#4 ∧ s.prologue (s.legal i) k = .next s.refuse) ∨
      (s.fault = 0#4 ∧ ¬ i.WellFormed s.build ∧ s.prologue (s.legal i) k = .next (s.raise .illegalCommand)) ∨
      (s.fault = 0#4 ∧ i.WellFormed s.build ∧ s.prologue (s.legal i) k = k) := by
  by_cases h : s.fault = 0#4
  · by_cases hl : i.WellFormed s.build
    · rw [(s.legal_iff i).mpr hl, s.prologue_passes h]
      exact .inr (.inr ⟨h, hl, rfl⟩)
    · rw [Bool.eq_false_iff.mpr (mt (s.legal_iff i).mp hl), s.prologue_illegal h]
      exact .inr (.inl ⟨h, hl, rfl⟩)
  · exact .inl ⟨h, s.prologue_refuses h _ _⟩

/-- All the prologue of a command with a source can answer. -/
theorem State.withSource_cases (i : Instr) (cs : CtxId) (k : Ctx → Result) :
    (s.fault ≠ 0#4 ∧ s.withSource i cs k = .next s.refuse) ∨
      (s.fault = 0#4 ∧ ¬ i.WellFormed s.build ∧ s.withSource i cs k = .next (s.raise .illegalCommand)) ∨
      (s.fault = 0#4 ∧ i.WellFormed s.build ∧ (s.ctx cs).valid = false ∧
        s.withSource i cs k = .next (s.raise .invalidCursor)) ∨
      (s.fault = 0#4 ∧ i.WellFormed s.build ∧ (s.ctx cs).valid = true ∧ s.withSource i cs k = k (s.ctx cs)) := by
  unfold State.withSource
  rcases s.prologue_cases i (if (s.ctx cs).valid then k (s.ctx cs) else .next (s.raise .invalidCursor)) with h | h | h
  · exact .inl h
  · exact .inr (.inl h)
  · obtain ⟨h0, hw, he⟩ := h
    rw [he]
    cases hv : (s.ctx cs).valid <;> simp [h0, hw]

/-- The prologue passed: the command's own rule runs on the source context. -/
theorem State.withSource_passes {i : Instr} {cs : CtxId} (h0 : s.fault = 0#4) (hw : i.WellFormed s.build)
    (hv : (s.ctx cs).valid = true) (k : Ctx → Result) : s.withSource i cs k = k (s.ctx cs) := by
  simp [State.withSource, (s.legal_iff i).mpr hw, s.prologue_passes h0, hv]

/-- The literal loop takes the same way in two states with one launch: it faults alike, stops alike, or finishes after
the same number of groups, at least one and at most `n`, with the same value. -/
theorem State.literalLoop_pair {s t : State} (hn : t.nbytes = s.nbytes) (hm : t.mem = s.mem) (base : Nat)
    (f g : Nat → Data → Result) (n p : Nat) (acc : Data) :
    (s.literalLoop base f n p acc = .next (s.raise .truncated) ∧
        t.literalLoop base g n p acc = .next (t.raise .truncated)) ∨
      (s.literalLoop base f n p acc = .next (s.raise .literalOverflow) ∧
        t.literalLoop base g n p acc = .next (t.raise .literalOverflow)) ∨
      (s.literalLoop base f n p acc = .fault .outsideBuffer ∧ t.literalLoop base g n p acc = .fault .outsideBuffer) ∨
      ∃ m v, 1 ≤ m ∧ m ≤ n ∧ s.literalLoop base f n p acc = f (p + 5 * m) v ∧
        t.literalLoop base g n p acc = g (p + 5 * m) v := by
  induction n generalizing p acc with
  | zero => exact .inl ⟨rfl, rfl⟩
  | succ n ih =>
    unfold State.literalLoop State.withField
    rw [State.field_congr hn hm]
    cases s.field (base + p) 5 with
    | none => exact .inr (.inr (.inl ⟨rfl, rfl⟩))
    | some group =>
      dsimp only
      split
      · exact .inr (.inl ⟨rfl, rfl⟩)
      · split
        · rcases ih (p + 5) (pushGroup acc group) with h | h | h | ⟨m, v, h1, hn, h, h'⟩
          · exact .inl h
          · exact .inr (.inl h)
          · exact .inr (.inr (.inl h))
          · rw [Nat.add_assoc, show 5 + 5 * m = 5 * (m + 1) by omega] at h h'
            exact .inr (.inr (.inr ⟨m + 1, v, by omega, by omega, h, h'⟩))
        · exact .inr (.inr (.inr ⟨1, _, le_rfl, by omega, rfl, rfl⟩))

/-- All the literal loop can answer: a fault, or a stop, or `finish` after at least one and at most `n` groups. -/
theorem State.literalLoop_cases (base : Nat) (finish : Nat → Data → Result) (n p : Nat) (acc : Data) :
    s.literalLoop base finish n p acc = .next (s.raise .truncated) ∨
      s.literalLoop base finish n p acc = .next (s.raise .literalOverflow) ∨
      s.literalLoop base finish n p acc = .fault .outsideBuffer ∨
      ∃ m v, 1 ≤ m ∧ m ≤ n ∧ s.literalLoop base finish n p acc = finish (p + 5 * m) v := by
  rcases State.literalLoop_pair (s := s) rfl rfl base finish finish n p acc with h | h | h | ⟨m, v, h1, hn, h, -⟩
  · exact .inl h.1
  · exact .inr (.inl h.1)
  · exact .inr (.inr (.inl h.1))
  · exact .inr (.inr (.inr ⟨m, v, h1, hn, h⟩))

/-- Inside the buffer the literal loop does not stop. -/
theorem State.literalLoop_inside {base n p : Nat} (h : base + p + 5 * n ≤ 8 * s.nbytes.toNat)
    (finish : Nat → Data → Result) (acc : Data) : s.literalLoop base finish n p acc = .next (s.raise .truncated) ∨
      s.literalLoop base finish n p acc = .next (s.raise .literalOverflow) ∨
      ∃ m v, 1 ≤ m ∧ m ≤ n ∧ s.literalLoop base finish n p acc = finish (p + 5 * m) v := by
  induction n generalizing p acc with
  | zero => exact .inl rfl
  | succ n ih =>
    obtain ⟨group, hg, -⟩ := s.field_inside (k := base + p) (w := 5) (by omega)
    unfold State.literalLoop
    rw [s.withField_some hg]
    split
    · exact .inr (.inl rfl)
    · split
      · rcases ih (p := p + 5) (by omega) (pushGroup acc group) with h | h | ⟨m, v, h1, hn, h⟩
        · exact .inl h
        · exact .inr (.inl h)
        · rw [Nat.add_assoc, show 5 + 5 * m = 5 * (m + 1) by omega] at h
          exact .inr (.inr ⟨m + 1, v, by omega, by omega, h⟩)
      · exact .inr (.inr ⟨1, _, le_rfl, by omega, rfl⟩)

/-- The loop of R72 as the spec writes it, with its check `len - p < 5`. -/
theorem State.literalLoop_eq (base rem : Nat) (finish : Nat → Data → Result) (p : Nat) (acc : Data) :
    s.literalLoop base finish (rem / 5) p acc =
      if rem < 5 then .next (s.raise .truncated)
      else s.withField (base + p) 5 fun g =>
        if accFull acc then .next (s.raise .literalOverflow)
        else if groupContinues g then s.literalLoop base finish ((rem - 5) / 5) (p + 5) (pushGroup acc g)
        else finish (p + 5) (pushGroup acc g) := by
  by_cases h : rem < 5
  · simp [h, Nat.div_eq_of_lt h, State.literalLoop]
  · rw [if_neg h, show rem / 5 = (rem - 5) / 5 + 1 by omega]
    rfl

/-! The host's next move. -/

theorem State.poll_idle (h : s.host = []) : s.poll = .settled (.next s) := by
  simp [State.poll, h]

theorem State.poll_takeResponse {ms : List HostMove} (h : s.host = .takeResponse :: ms) :
    s.poll = .settled (.next { s with host := ms }.transfer) := by
  simp [State.poll, h]

theorem State.poll_reset {bytes : Option (List Byte)} {ms : List HostMove} (h : s.host = .reset bytes :: ms) :
    s.poll = .settled ({ s with host := ms }.hostReset bytes) := by
  simp [State.poll, h]

theorem State.poll_waiting {w : Cmd} {ms : List HostMove} {r : Rsp} (h : s.host = .command w :: ms)
    (hr : s.rsp = some r) : s.poll = .settled (.next s.transfer) := by
  simp [State.poll, h, hr]

theorem State.poll_command {w : Cmd} {ms : List HostMove} (h : s.host = .command w :: ms) (hr : s.rsp = none) :
    s.poll = { s with host := ms }.accept w := by
  simp [State.poll, h, hr]

/-- An accepted word is some command's or illegal. -/
theorem State.accept_cases (w : Cmd) :
    (∃ i, decode s.build w = .ok i ∧ s.accept w = .run i s) ∨
      ((∃ r, decode s.build w = .error r) ∧ s.accept w = .settled s.illegalWord) := by
  unfold State.accept
  cases decode s.build w <;> simp

/-- An illegal word: refused after a fault, `IllegalCommand` otherwise. -/
theorem State.illegalWord_eq :
    s.illegalWord = .next (if s.fault ≠ 0#4 then s.refuse else s.raise .illegalCommand) := by
  unfold State.illegalWord State.prologue
  split <;> simp

/-- All a transfer does. -/
theorem State.transfer_eq :
    s.transfer = { s with rsp := none, responses := s.responses ++ s.rsp.toList } := by
  unfold State.transfer
  cases h : s.rsp with
  | none => cases s; simp_all
  | some r => simp

/-- All a reset move can answer. -/
theorem State.hostReset_cases (bytes : Option (List Byte)) :
    (bytes = none ∧ s.hostReset bytes = .next (s.restart s.nbytes s.mem)) ∨
      (∃ bs, bytes = some bs ∧ bs.length ≤ s.build.memBytes.toNat ∧
        s.hostReset bytes = .next (s.restart (BitVec.ofNat 29 bs.length) (placeBytes bs))) ∨
      ∃ bs, bytes = some bs ∧ s.build.memBytes.toNat < bs.length ∧ s.hostReset bytes = .refused .launchTooLarge := by
  cases bytes with
  | none => exact .inl ⟨rfl, rfl⟩
  | some bs =>
    by_cases h : bs.length ≤ s.build.memBytes.toNat
    · exact .inr (.inl ⟨bs, rfl, h, if_pos h⟩)
    · exact .inr (.inr ⟨bs, rfl, Nat.not_le.mp h, if_neg h⟩)

end Sys2Proof.Machine
end

