-- ==== Sys2Proof/Laws/Exec.lean ====
section
/-!
SUPPORT. All a command and a step can do, said once.
-/

namespace Sys2Proof.Machine

open Sys2Proof

variable {s t : State}

/-- `t` is what `i` leaves when it completes in `s` (spec/40_cursor_commands.md R56 to R61, 41_literal_decoder.md R72). -/
inductive Completes (s : State) : Instr → State → Prop
  | openView (cd : CtxId) : Completes s (.openView cd) ((s.setCtx cd s.rootView).respond 0)
  | read (cs : CtxId) (w : Offset) (v : Nat) (enough : w.toNat ≤ (s.ctx cs).remaining)
      (bits : s.field (s.ctx cs).address w.toNat = some v) :
      Completes s (.read cs w) ((s.setPos cs ((s.ctx cs).pos + w)).respond (BitVec.ofNat 64 v))
  | rem (cs : CtxId) : Completes s (.rem cs) (s.respond (BitVec.ofNat 64 (s.ctx cs).remaining))
  | pos (cs : CtxId) : Completes s (.pos cs) (s.respond ((s.ctx cs).pos.setWidth 64))
  | slice (cd cs : CtxId) (start len : Offset) (fits : start.toNat + len.toNat ≤ (s.ctx cs).len.toNat) :
      Completes s (.slice cd cs start len) ((s.setCtx cd ((s.ctx cs).window start len)).respond 0)
  | skip (cs : CtxId) (n : Offset) (enough : n.toNat ≤ (s.ctx cs).remaining) :
      Completes s (.skip cs n) ((s.setPos cs ((s.ctx cs).pos + n)).respond 0)
  | rdlit (cs : CtxId) (m : Nat) (acc : Data) (one : 1 ≤ m) (enough : m ≤ (s.ctx cs).remaining / 5) :
      Completes s (.rdlit cs) ((s.setPos cs (BitVec.ofNat 32 ((s.ctx cs).pos.toNat + 5 * m))).respond acc)

/-- `x` is a fault the command's own rule may raise in `s` (spec/60_exceptions.md R77 to R79). -/
inductive OwnFault (s : State) : Instr → BcuFault → Prop
  | read (cs : CtxId) (w : Offset) (short : (s.ctx cs).remaining < w.toNat) : OwnFault s (.read cs w) .outOfBounds
  | slice (cd cs : CtxId) (start len : Offset) (misfit : (s.ctx cs).len.toNat < start.toNat + len.toNat) :
      OwnFault s (.slice cd cs start len) .outOfBounds
  | skip (cs : CtxId) (n : Offset) (short : (s.ctx cs).remaining < n.toNat) : OwnFault s (.skip cs n) .outOfBounds
  | truncated (cs : CtxId) : OwnFault s (.rdlit cs) .truncated
  | overflow (cs : CtxId) : OwnFault s (.rdlit cs) .literalOverflow

/-- All a command can do when it answers a next state: it is refused, it is illegal, its source is invalid, its own rule
raises a fault, or it completes (the order of 60_exceptions.md R81). -/
theorem exec_next {i : Instr} (h : exec i s = .next t) :
    (s.fault ≠ 0#4 ∧ t = s.refuse) ∨
      (s.fault = 0#4 ∧ ¬ i.WellFormed s.build ∧ t = s.raise .illegalCommand) ∨
      (s.fault = 0#4 ∧ i.WellFormed s.build ∧ (∃ cs ∈ i.source, (s.ctx cs).valid = false) ∧
        t = s.raise .invalidCursor) ∨
      (s.Ready i ∧ ∃ x, OwnFault s i x ∧ t = s.raise x) ∨ (s.Ready i ∧ Completes s i t) := by
  have sourced {cs : CtxId} {k : Ctx → Result} (hi : i.source = some cs) (h : s.withSource i cs k = .next t)
      (hk : k (s.ctx cs) = .next t → (∃ x, OwnFault s i x ∧ t = s.raise x) ∨ Completes s i t) :
      (s.fault ≠ 0#4 ∧ t = s.refuse) ∨
      (s.fault = 0#4 ∧ ¬ i.WellFormed s.build ∧ t = s.raise .illegalCommand) ∨
      (s.fault = 0#4 ∧ i.WellFormed s.build ∧ (∃ cs ∈ i.source, (s.ctx cs).valid = false) ∧
        t = s.raise .invalidCursor) ∨
      (s.Ready i ∧ ∃ x, OwnFault s i x ∧ t = s.raise x) ∨ (s.Ready i ∧ Completes s i t) := by
    rcases s.withSource_cases i cs k with ⟨h0, e⟩ | ⟨h0, hw, e⟩ | ⟨h0, hw, hv, e⟩ | ⟨h0, hw, hv, e⟩ <;> rw [e] at h
    · cases h
      exact .inl ⟨h0, rfl⟩
    · cases h
      exact .inr (.inl ⟨h0, hw, rfl⟩)
    · cases h
      exact .inr (.inr (.inl ⟨h0, hw, ⟨cs, hi, hv⟩, rfl⟩))
    · have ready : s.Ready i := ⟨h0, hw, by simpa [hi] using hv⟩
      rcases hk h with hx | hc
      · exact .inr (.inr (.inr (.inl ⟨ready, hx⟩)))
      · exact .inr (.inr (.inr (.inr ⟨ready, hc⟩)))
  cases i with
  | openView cd =>
    simp only [exec, execOpen] at h
    rcases s.prologue_cases (.openView cd) (.next ((s.setCtx cd s.rootView).respond 0)) with
      ⟨h0, e⟩ | ⟨h0, hw, e⟩ | ⟨h0, hw, e⟩ <;> rw [e] at h <;> cases h
    · exact .inl ⟨h0, rfl⟩
    · exact .inr (.inl ⟨h0, hw, rfl⟩)
    · exact .inr (.inr (.inr (.inr ⟨⟨h0, hw, by simp [Instr.source]⟩, .openView cd⟩)))
  | read cs w =>
    simp only [exec, execRead] at h
    refine sourced rfl h fun hk => ?_
    split at hk
    · next hs => exact .inl ⟨.outOfBounds, .read cs w (by simpa [Ctx.tooFew] using hs), by cases hk; rfl⟩
    · next hs =>
      rcases s.withField_cases (s.ctx cs).address w.toNat
        (fun v => .next ((s.setPos cs ((s.ctx cs).pos + w)).respond (BitVec.ofNat 64 v))) with ⟨v, hv, e⟩ | ⟨-, e⟩ <;>
        rw [e] at hk <;> cases hk
      exact .inr (.read cs w v (by simpa [Ctx.tooFew] using hs) hv)
  | rem cs =>
    simp only [exec, execRem] at h
    exact sourced rfl h fun hk => .inr (by cases hk; exact .rem cs)
  | pos cs =>
    simp only [exec, execPos] at h
    exact sourced rfl h fun hk => .inr (by cases hk; exact .pos cs)
  | slice cd cs start len =>
    simp only [exec, execSlice] at h
    refine sourced rfl h fun hk => ?_
    split at hk
    · next hs =>
      exact .inl ⟨.outOfBounds, .slice cd cs start len (by simpa [Ctx.windowMisfit] using hs), by cases hk; rfl⟩
    · next hs => exact .inr (by cases hk; exact .slice cd cs start len (by simpa [Ctx.windowMisfit] using hs))
  | skip cs n =>
    simp only [exec, execSkip] at h
    refine sourced rfl h fun hk => ?_
    split at hk
    · next hs => exact .inl ⟨.outOfBounds, .skip cs n (by simpa [Ctx.tooFew] using hs), by cases hk; rfl⟩
    · next hs => exact .inr (by cases hk; exact .skip cs n (by simpa [Ctx.tooFew] using hs))
  | rdlit cs =>
    simp only [exec, execRdlit] at h
    refine sourced rfl h fun hk => ?_
    rcases s.literalLoop_cases (s.ctx cs).base.toNat
      (fun p acc => .next ((s.setPos cs (BitVec.ofNat 32 p)).respond acc))
      ((s.ctx cs).remaining / 5) (s.ctx cs).pos.toNat 0 with e | e | e | ⟨m, acc, h1, hn, e⟩ <;>
      rw [e] at hk <;> cases hk
    · exact .inl ⟨.truncated, .truncated cs, rfl⟩
    · exact .inl ⟨.literalOverflow, .overflow cs, rfl⟩
    · exact .inr (.rdlit cs m acc h1 hn)

/-! The command's own rule, once the prologue is passed. -/

theorem exec_openView_ready {cd : CtxId} (h : s.Ready (.openView cd)) :
    exec (.openView cd) s = .next ((s.setCtx cd s.rootView).respond 0) := by
  simp only [exec, execOpen, (s.legal_iff _).mpr h.2.1, s.prologue_passes h.1]

theorem exec_read_ready {cs : CtxId} {w : Offset} (h : s.Ready (.read cs w)) :
    exec (.read cs w) s =
      if (s.ctx cs).tooFew w.toNat then .next (s.raise .outOfBounds)
      else s.withField (s.ctx cs).address w.toNat fun v =>
        .next ((s.setPos cs ((s.ctx cs).pos + w)).respond (BitVec.ofNat 64 v)) := by
  simp only [exec, execRead, s.withSource_passes h.1 h.2.1 (h.2.2 cs rfl)]

theorem exec_rem_ready {cs : CtxId} (h : s.Ready (.rem cs)) :
    exec (.rem cs) s = .next (s.respond (BitVec.ofNat 64 (s.ctx cs).remaining)) := by
  simp only [exec, execRem, s.withSource_passes h.1 h.2.1 (h.2.2 cs rfl)]

theorem exec_pos_ready {cs : CtxId} (h : s.Ready (.pos cs)) :
    exec (.pos cs) s = .next (s.respond ((s.ctx cs).pos.setWidth 64)) := by
  simp only [exec, execPos, s.withSource_passes h.1 h.2.1 (h.2.2 cs rfl)]

theorem exec_slice_ready {cd cs : CtxId} {start len : Offset} (h : s.Ready (.slice cd cs start len)) :
    exec (.slice cd cs start len) s =
      if (s.ctx cs).windowMisfit start len then .next (s.raise .outOfBounds)
      else .next ((s.setCtx cd ((s.ctx cs).window start len)).respond 0) := by
  simp only [exec, execSlice, s.withSource_passes h.1 h.2.1 (h.2.2 cs rfl)]

theorem exec_skip_ready {cs : CtxId} {n : Offset} (h : s.Ready (.skip cs n)) :
    exec (.skip cs n) s =
      if (s.ctx cs).tooFew n.toNat then .next (s.raise .outOfBounds)
      else .next ((s.setPos cs ((s.ctx cs).pos + n)).respond 0) := by
  simp only [exec, execSkip, s.withSource_passes h.1 h.2.1 (h.2.2 cs rfl)]

theorem exec_rdlit_ready {cs : CtxId} (h : s.Ready (.rdlit cs)) :
    exec (.rdlit cs) s =
      s.literalLoop (s.ctx cs).base.toNat (fun p acc => .next ((s.setPos cs (BitVec.ofNat 32 p)).respond acc))
        ((s.ctx cs).remaining / 5) (s.ctx cs).pos.toNat 0 := by
  simp only [exec, execRdlit, s.withSource_passes h.1 h.2.1 (h.2.2 cs rfl)]

/-- What a command answers before its own rule is reached, if it is not (60_exceptions.md R81, steps 1 to 3). -/
theorem exec_prologue (s : State) (i : Instr) :
    (s.fault ≠ 0#4 ∧ exec i s = .next s.refuse) ∨
      (s.fault = 0#4 ∧ ¬ i.WellFormed s.build ∧ exec i s = .next (s.raise .illegalCommand)) ∨
      (s.fault = 0#4 ∧ i.WellFormed s.build ∧ (∃ cs ∈ i.source, (s.ctx cs).valid = false) ∧
        exec i s = .next (s.raise .invalidCursor)) ∨ s.Ready i := by
  have sourced {cs : CtxId} {k : Ctx → Result} (hi : i.source = some cs) (he : exec i s = s.withSource i cs k) :
      (s.fault ≠ 0#4 ∧ exec i s = .next s.refuse) ∨
      (s.fault = 0#4 ∧ ¬ i.WellFormed s.build ∧ exec i s = .next (s.raise .illegalCommand)) ∨
      (s.fault = 0#4 ∧ i.WellFormed s.build ∧ (∃ cs ∈ i.source, (s.ctx cs).valid = false) ∧
        exec i s = .next (s.raise .invalidCursor)) ∨ s.Ready i := by
    rw [he]
    rcases s.withSource_cases i cs k with h | h | ⟨h0, hw, hv, e⟩ | ⟨h0, hw, hv, -⟩
    · exact .inl h
    · exact .inr (.inl h)
    · exact .inr (.inr (.inl ⟨h0, hw, ⟨cs, hi, hv⟩, e⟩))
    · exact .inr (.inr (.inr ⟨h0, hw, by simpa [hi] using hv⟩))
  cases i with
  | openView cd =>
    rcases s.prologue_cases (.openView cd) (.next ((s.setCtx cd s.rootView).respond 0)) with h | h | ⟨h0, hw, -⟩
    · exact .inl h
    · exact .inr (.inl h)
    · exact .inr (.inr (.inr ⟨h0, hw, by simp [Instr.source]⟩))
  | read cs w => exact sourced rfl (by simp only [exec, execRead]; rfl)
  | rem cs => exact sourced rfl (by simp only [exec, execRem]; rfl)
  | pos cs => exact sourced rfl (by simp only [exec, execPos]; rfl)
  | slice cd cs start len => exact sourced rfl (by simp only [exec, execSlice]; rfl)
  | skip cs n => exact sourced rfl (by simp only [exec, execSkip]; rfl)
  | rdlit cs => exact sourced rfl (by simp only [exec, execRdlit]; rfl)

/-- No command is refused by the model: a refusal of the BCU (60_exceptions.md R84) is a next state. -/
theorem exec_not_refused (s : State) (i : Instr) (r : Refusal) : exec i s ≠ .refused r := by
  have sourced {j : Instr} {cs : CtxId} {k : Ctx → Result} (hk : ∀ c, k c ≠ .refused r) :
      s.withSource j cs k ≠ .refused r := by
    rcases s.withSource_cases j cs k with ⟨-, e⟩ | ⟨-, -, e⟩ | ⟨-, -, -, e⟩ | ⟨-, -, -, e⟩ <;> rw [e]
    · simp
    · simp
    · simp
    · exact hk _
  cases i with
  | openView cd =>
    simp only [exec, execOpen]
    rcases s.prologue_cases (.openView cd) (.next ((s.setCtx cd s.rootView).respond 0)) with
      ⟨-, e⟩ | ⟨-, -, e⟩ | ⟨-, -, e⟩ <;> rw [e] <;> simp
  | read cs w =>
    simp only [exec, execRead]
    refine sourced fun c => ?_
    split
    · simp
    · unfold State.withField
      split <;> simp
  | rem cs =>
    simp only [exec, execRem]
    exact sourced fun c => by simp
  | pos cs =>
    simp only [exec, execPos]
    exact sourced fun c => by simp
  | slice cd cs start len =>
    simp only [exec, execSlice]
    exact sourced fun c => by split <;> simp
  | skip cs n =>
    simp only [exec, execSkip]
    exact sourced fun c => by split <;> simp
  | rdlit cs =>
    simp only [exec, execRdlit]
    refine sourced fun c => ?_
    rcases s.literalLoop_cases c.base.toNat (fun p acc => .next ((s.setPos cs (BitVec.ofNat 32 p)).respond acc))
      (c.remaining / 5) c.pos.toNat 0 with e | e | e | ⟨m, acc, -, -, e⟩ <;> rw [e] <;> simp

/-- What a completed command leaves of everything but the context file and the response. -/
theorem Completes.same {i : Instr} (h : Completes s i t) :
    t.build = s.build ∧ t.nbytes = s.nbytes ∧ t.mem = s.mem ∧ t.fault = s.fault ∧ t.host = s.host ∧
      t.responses = s.responses ∧ ∃ d, t.rsp = some ⟨0#4, d⟩ := by
  cases h <;> simp

/-- Which contexts a completed command writes: its destination, and the position of the one it moves. -/
theorem Completes.ctx {i : Instr} (h : Completes s i t) (j : CtxId) :
    t.ctx j = s.ctx j ∨ i.dest = some j ∨ (i.mover = some j ∧ ∃ p, t.ctx j = { s.ctx j with pos := p }) := by
  cases h with
  | openView cd =>
    by_cases hj : j = cd
    · exact .inr (.inl (by simp [Instr.dest, hj]))
    · exact .inl (by simp [State.ctx_setCtx_other _ hj])
  | slice cd cs start len =>
    by_cases hj : j = cd
    · exact .inr (.inl (by simp [Instr.dest, hj]))
    · exact .inl (by simp [State.ctx_setCtx_other _ hj])
  | read cs w v =>
    by_cases hj : j = cs
    · exact .inr (.inr ⟨by simp [Instr.mover, hj], _, by subst hj; simp; rfl⟩)
    · exact .inl (by simp [State.ctx_setPos_other _ hj])
  | skip cs n =>
    by_cases hj : j = cs
    · exact .inr (.inr ⟨by simp [Instr.mover, hj], _, by subst hj; simp; rfl⟩)
    · exact .inl (by simp [State.ctx_setPos_other _ hj])
  | rdlit cs m acc =>
    by_cases hj : j = cs
    · exact .inr (.inr ⟨by simp [Instr.mover, hj], _, by subst hj; simp; rfl⟩)
    · exact .inl (by simp [State.ctx_setPos_other _ hj])
  | rem cs => exact .inl rfl
  | pos cs => exact .inl rfl

/-- All a step can do when it answers a next state: idle, transfer a response, reset, answer an illegal word, or run a
command. -/
theorem step_next (h : step s = .next t) :
    (s.host = [] ∧ t = s) ∨
      (∃ ms, s.host = .takeResponse :: ms ∧ t = { s with host := ms }.transfer) ∨
      (∃ bytes ms, s.host = .reset bytes :: ms ∧ { s with host := ms }.hostReset bytes = .next t) ∨
      (∃ w ms r, s.host = .command w :: ms ∧ s.rsp = some r ∧ t = s.transfer) ∨
      (∃ w ms e, s.host = .command w :: ms ∧ s.rsp = none ∧ decode s.build w = .error e ∧
        { s with host := ms }.illegalWord = .next t) ∨
      ∃ w ms i, s.host = .command w :: ms ∧ s.rsp = none ∧ decode s.build w = .ok i ∧
        exec i { s with host := ms } = .next t := by
  unfold step at h
  rcases hh : s.host with _ | ⟨w | _ | bytes, ms⟩
  · rw [s.poll_idle hh] at h
    cases h
    exact .inl ⟨rfl, rfl⟩
  · obtain hr | ⟨r, hr⟩ := Option.eq_none_or_eq_some s.rsp
    · rw [s.poll_command hh hr] at h
      rcases State.accept_cases { s with host := ms } w with ⟨i, hd, e⟩ | ⟨⟨r, hd⟩, e⟩
      · rw [e] at h
        exact .inr (.inr (.inr (.inr (.inr ⟨w, ms, i, rfl, hr, hd, h⟩))))
      · rw [e] at h
        exact .inr (.inr (.inr (.inr (.inl ⟨w, ms, r, rfl, hr, hd, h⟩))))
    · rw [s.poll_waiting hh hr] at h
      cases h
      exact .inr (.inr (.inr (.inl ⟨w, ms, r, rfl, hr, rfl⟩)))
  · rw [s.poll_takeResponse hh] at h
    cases h
    exact .inr (.inl ⟨ms, rfl, rfl⟩)
  · rw [s.poll_reset hh] at h
    exact .inr (.inr (.inl ⟨bytes, ms, rfl, h⟩))

/-- A step that accepts an illegal word: refused after a fault, `IllegalCommand` otherwise (30_encoding.md R46). -/
theorem step_illegal {w : Cmd} {ms : List HostMove} {e : Illegal} (h : s.host = .command w :: ms) (hr : s.rsp = none)
    (hd : decode s.build w = .error e) :
    step s = .next (if s.fault ≠ 0#4 then { s with host := ms }.refuse
      else { s with host := ms }.raise .illegalCommand) := by
  unfold step
  rw [s.poll_command h hr]
  simp only [State.accept, hd, State.illegalWord_eq]

end Sys2Proof.Machine
end

