-- ==== Sys2Proof/Laws/Memory.lean ====
section
/-!
SUPPORT. Placing a byte sequence (spec/70_reset_and_hazards.md R95) gives a buffer in canonical form that reads back
the sequence. It is the only operation that makes a buffer: the BCU has no store (20_memory.md R26).
-/

namespace Sys2Proof.Machine

open Sys2Proof

theorem Memory.wfFrom_mono {lo lo' : Nat} (h : lo' ≤ lo) {m : Memory} (hm : Memory.wfFrom lo m = true) :
    Memory.wfFrom lo' m = true := by
  cases m with
  | nil => rfl
  | cons cell m =>
    obtain ⟨a, b⟩ := cell
    simp only [Memory.wfFrom, Bool.and_eq_true, decide_eq_true_eq] at hm ⊢
    exact ⟨⟨h.trans hm.1.1, hm.1.2⟩, hm.2⟩

theorem placeFrom_wfFrom (bs : List Byte) (addr : Nat) : Memory.wfFrom addr (placeFrom addr bs) = true := by
  induction bs generalizing addr with
  | nil => rfl
  | cons b bs ih =>
    unfold placeFrom
    split
    · exact Memory.wfFrom_mono (Nat.le_succ addr) (ih (addr + 1))
    · next hb => simp [Memory.wfFrom, hb, ih (addr + 1)]

theorem placeBytes_wf (bs : List Byte) : Memory.wf (placeBytes bs) = true := placeFrom_wfFrom bs 0

theorem placeFrom_bounds (bs : List Byte) (addr : Nat) :
    ∀ cell ∈ placeFrom addr bs, addr ≤ cell.1 ∧ cell.1 < addr + bs.length := by
  induction bs generalizing addr with
  | nil => simp [placeFrom]
  | cons b bs ih =>
    intro cell hc
    have later : cell ∈ placeFrom (addr + 1) bs → addr ≤ cell.1 ∧ cell.1 < addr + (b :: bs).length := fun h => by
      have := ih (addr + 1) cell h
      simp only [List.length_cons]
      omega
    unfold placeFrom at hc
    split at hc
    · exact later hc
    · rcases List.mem_cons.mp hc with rfl | h
      · simp
      · exact later h

theorem placeBytes_bounds (bs : List Byte) : ∀ cell ∈ placeBytes bs, cell.1 < bs.length := fun cell h => by
  simpa using (placeFrom_bounds bs 0 cell h).2

theorem lookup_placeFrom_below (bs : List Byte) {addr k : Nat} (h : k < addr) : lookup (placeFrom addr bs) k = 0#8 := by
  induction bs generalizing addr with
  | nil => rfl
  | cons b bs ih =>
    unfold placeFrom
    split
    · exact ih (Nat.lt_succ_of_lt h)
    · simp [lookup, show addr ≠ k by omega, ih (Nat.lt_succ_of_lt h)]

theorem lookup_placeFrom (bs : List Byte) (addr k : Nat) (h : k < bs.length) :
    lookup (placeFrom addr bs) (addr + k) = bs[k] := by
  induction bs generalizing addr k with
  | nil => simp at h
  | cons b bs ih =>
    unfold placeFrom
    cases k with
    | zero =>
      split
      · next hb => simpa [hb] using lookup_placeFrom_below bs (Nat.lt_succ_self addr)
      · simp [lookup]
    | succ k =>
      have hk : k < bs.length := by simpa using h
      have := ih (addr + 1) k hk
      rw [show addr + 1 + k = addr + (k + 1) by omega] at this
      split <;> simp [lookup, this]

/-- The byte placed at an address reads back. -/
theorem lookup_placeBytes (bs : List Byte) (k : Nat) (h : k < bs.length) : lookup (placeBytes bs) k = bs[k] := by
  simpa [placeBytes] using lookup_placeFrom bs 0 k h

end Sys2Proof.Machine
end

