-- ==== Sys2Proof/Laws/PerInstr.lean ====
section
/-!
SUPPORT. Per command: the word an assembler writes carries the opcode of spec/30_encoding.md R44 in bits 79:72.
-/

namespace Sys2Proof.Laws.OpcodeByte

open Sys2Proof

/-- Bits 79:72 of the command's word are its opcode. -/
def Statement (i : Instr) : Prop := (encode i).extractLsb' 72 8 = opcodeOf i

/-- The opcode is a field of the word like any other. -/
theorem of_fields (i : Instr) : Statement i := by
  have h : (splitWord (joinWord (fieldsOf i))).op = (fieldsOf i).op := by rw [splitWord_joinWord]
  exact h.trans (by cases i <;> rfl)

theorem openView (cd : CtxId) : Statement (.openView cd) := of_fields _
theorem read (cs : CtxId) (w : Offset) : Statement (.read cs w) := of_fields _
theorem rem (cs : CtxId) : Statement (.rem cs) := of_fields _
theorem pos (cs : CtxId) : Statement (.pos cs) := of_fields _
theorem slice (cd cs : CtxId) (start len : Offset) : Statement (.slice cd cs start len) := of_fields _
theorem skip (cs : CtxId) (n : Offset) : Statement (.skip cs n) := of_fields _
theorem rdlit (cs : CtxId) : Statement (.rdlit cs) := of_fields _

end Sys2Proof.Laws.OpcodeByte
end

