-- ==== Sys2Proof/Tests/Slice0.lean ====
section
/-!
SUPPORT. Tests: the well-formedness smoke test, decoding of words spelt out from spec/, one-step vectors of
spec/95_test_vectors.md, and for each obligation with hypotheses a state and operands that meet them.
-/

namespace Sys2Proof.Machine

/-- The host's next move is `m`, with nothing after it. -/
def State.facing (s : State) (m : HostMove) : State := { s with host := [m] }

end Sys2Proof.Machine

namespace Sys2Proof.Tests

open Sys2Proof Sys2Proof.Machine

/-! ## Well-formedness smoke test (30_encoding.md R46 (b), (d), (e)) -/

/-- The default build without the literal decoder. -/
def noRdlit : Build := { Build.standard with hasRdlit := false }

theorem test_wf_context_index :
    (Instr.openView 7).WellFormed Build.standard ∧ ¬ (Instr.openView 8).WellFormed Build.standard ∧
    ¬ (Instr.read 15 1).WellFormed Build.standard ∧ ¬ (Instr.rem 8).WellFormed Build.standard ∧
    ¬ (Instr.pos 8).WellFormed Build.standard ∧ ¬ (Instr.slice 8 0 0 0).WellFormed Build.standard ∧
    ¬ (Instr.slice 0 8 0 0).WellFormed Build.standard ∧ ¬ (Instr.skip 8 0).WellFormed Build.standard ∧
    ¬ (Instr.rdlit 8).WellFormed Build.standard := by decide

theorem test_wf_read_width :
    (Instr.read 0 1).WellFormed Build.standard ∧ (Instr.read 0 64).WellFormed Build.standard ∧
    ¬ (Instr.read 0 0).WellFormed Build.standard ∧ ¬ (Instr.read 0 65).WellFormed Build.standard := by decide

theorem test_wf_rdlit_present :
    (Instr.rdlit 0).WellFormed Build.standard ∧ ¬ (Instr.rdlit 0).WellFormed noRdlit := by decide

/-! ## Decoding (30_encoding.md R41, R44 to R46; words of 95_test_vectors.md) -/

/-- What the decoder answers, without the reason of a refusal. -/
def decoded (b : Build) (w : Cmd) : Option Instr :=
  match decode b w with
  | .ok i => some i
  | .error _ => none

/-- Each command's word, field by field from R41: `op`, `cd`, `cs`, `a`, `b`. -/
theorem test_decode_fields :
    decoded Build.standard (0x01#8 ++ 0x7#4 ++ 0x0#4 ++ 0x00000000#32 ++ 0x00000000#32) = some (.openView 7) ∧
    decoded Build.standard (0x02#8 ++ 0x0#4 ++ 0x1#4 ++ 0x00000040#32 ++ 0x00000000#32) = some (.read 1 64) ∧
    decoded Build.standard (0x03#8 ++ 0x0#4 ++ 0x2#4 ++ 0x00000000#32 ++ 0x00000000#32) = some (.rem 2) ∧
    decoded Build.standard (0x04#8 ++ 0x0#4 ++ 0x3#4 ++ 0x00000000#32 ++ 0x00000000#32) = some (.pos 3) ∧
    decoded Build.standard (0x05#8 ++ 0x1#4 ++ 0x0#4 ++ 0x00000016#32 ++ 0x0000001B#32) = some (.slice 1 0 22 27) ∧
    decoded Build.standard (0x06#8 ++ 0x0#4 ++ 0x0#4 ++ 0xFFFFFFFF#32 ++ 0x00000000#32) =
      some (.skip 0 0xFFFFFFFF) ∧
    decoded Build.standard (0x07#8 ++ 0x0#4 ++ 0x1#4 ++ 0x00000000#32 ++ 0x00000000#32) = some (.rdlit 1) := by decide

/-- R46 (a): V-X1, V-X2, V-X3. -/
theorem test_decode_unknown_opcode :
    decoded Build.standard 0x00000000000000000000#80 = none ∧
    decoded Build.standard 0x08000000000000000000#80 = none ∧
    decoded Build.standard 0xFFFFFFFFFFFFFFFFFFFF#80 = none := by decide

/-- R46 (c): V-OP6, V-RD15, V-RD16, V-Q3, and one for REM, SKIP and RDLIT. -/
theorem test_decode_unused_field :
    decoded Build.standard 0x01010000000000000000#80 = none ∧
    decoded Build.standard 0x02100000000300000000#80 = none ∧
    decoded Build.standard 0x02000000000300000001#80 = none ∧
    decoded Build.standard 0x04000000000100000000#80 = none ∧
    decoded Build.standard 0x03100000000000000000#80 = none ∧
    decoded Build.standard 0x06000000000100000001#80 = none ∧
    decoded Build.standard 0x07000000000000000001#80 = none := by decide

/-- R46 (b), (d), (e): V-L13, V-OP5, V-RD17, V-RD11, V-RD12, V-RD13. -/
theorem test_decode_operands :
    decoded noRdlit 0x07000000000000000000#80 = none ∧
    decoded Build.standard 0x01800000000000000000#80 = none ∧
    decoded Build.standard 0x020F0000000100000000#80 = none ∧
    decoded Build.standard 0x02000000000000000000#80 = none ∧
    decoded Build.standard 0x02000000004100000000#80 = none ∧
    decoded Build.standard 0x0200FFFFFFFF00000000#80 = none := by decide

/-! ## One step on a small state (95_test_vectors.md section 2) -/

/-- A launch over a byte sequence. -/
def launch (bs : List Byte) : State :=
  { State.reset with nbytes := BitVec.ofNat 29 bs.length, mem := placeBytes bs }

/-- After `OPEN c0`, and whatever moved `c0` to `p`. -/
def opened (bs : List Byte) (p : Offset) : State :=
  (launch bs).setCtx 0 { valid := true, base := 0, len := BitVec.ofNat 32 (8 * bs.length), pos := p }

/-- The next state, with the state itself where there is none. -/
def after (o : Result) (s : State) : State :=
  match o with
  | .next t => t
  | .fault _ => s
  | .refused _ => s

/-- Status and data of the response a command presents. -/
def answered (i : Instr) (s : State) : Option (Nat × Nat) :=
  match exec i s with
  | .next t => t.rsp.map fun r => (r.status.toNat, r.data.toNat)
  | .fault _ => none
  | .refused _ => none

/-- Context `j` after a command. -/
def ctxAfter (i : Instr) (s : State) (j : CtxId) : Ctx := (after (exec i s) s).ctx j

/-- Buffers A and S of 95_test_vectors.md section 2. -/
def bufA : List Byte := [0xD2, 0xFE, 0x28]
def bufS : List Byte := [0x38, 0x00, 0x6F, 0x45, 0x29, 0x12, 0x00]

/-- V-L10: `10001`, fifteen `10000`, `00000`: a literal of value 2^64. V-L8: the largest value in 17 groups. V-L7: in 16
groups, with no bit to spare. -/
def bufL10 : List Byte := [0x8C, 0x21, 0x08, 0x42, 0x10, 0x84, 0x21, 0x08, 0x42, 0x10, 0x00]
def bufL8 : List Byte := [0x87, 0xFF, 0xFF, 0xFF, 0xFF, 0xFF, 0xFF, 0xFF, 0xFF, 0xFF, 0x78]
def bufL7 : List Byte := [0xFF, 0xFF, 0xFF, 0xFF, 0xFF, 0xFF, 0xFF, 0xFF, 0xFF, 0xEF]

/-- 17 groups of flag 1 and 3 bits more: the value passes 2^64 before the bits end (R72). -/
def bufFlags : List Byte := [0xFF, 0xFF, 0xFF, 0xFF, 0xFF, 0xFF, 0xFF, 0xFF, 0xFF, 0xFF, 0xFF]

/-- V-OP1. -/
theorem test_open :
    answered (.openView 0) (launch bufA) = some (0, 0) ∧ ctxAfter (.openView 0) (launch bufA) 0 = ⟨true, 0, 24, 0⟩ := by
  decide

/-- V-OP3: OPEN on a valid context starts it again. -/
theorem test_open_again : ctxAfter (.openView 0) (opened bufS 8) 0 = ⟨true, 0, 56, 0⟩ := by decide

/-- V-RD5: the field straddles bytes 0 and 1. -/
theorem test_read_straddles :
    answered (.read 0 8) (opened bufA 5) = some (0, 0x5F) ∧ ctxAfter (.read 0 8) (opened bufA 5) 0 = ⟨true, 0, 24, 13⟩ := by
  decide

/-- V-RD4: one bit too many; the position stays. -/
theorem test_read_too_few :
    answered (.read 0 25) (opened bufA 0) = some (1, 0) ∧ ctxAfter (.read 0 25) (opened bufA 0) 0 = ⟨true, 0, 24, 0⟩ := by
  decide

/-- V-RD1: 20 bits remain after the first 4; V-X4 and V-Q2: a context never written. -/
theorem test_rem : answered (.rem 0) (opened bufA 4) = some (0, 20) ∧ answered (.rem 1) (opened bufA 4) = some (4, 0) := by
  decide
theorem test_pos : answered (.pos 0) (opened bufA 4) = some (0, 4) ∧ answered (.pos 1) (opened bufA 4) = some (4, 0) := by
  decide

/-- V-SL8: source and destination are one context. -/
theorem test_slice_onto_source :
    answered (.slice 0 0 22 27) (opened bufS 22) = some (0, 0) ∧
    ctxAfter (.slice 0 0 22 27) (opened bufS 22) 0 = ⟨true, 22, 27, 0⟩ := by decide

/-- V-SL2, V-SL5, V-SL6: windows that do not fit, the last one only over the naturals. -/
theorem test_slice_misfits :
    answered (.slice 1 0 30 27) (opened bufS 0) = some (1, 0) ∧ answered (.slice 1 0 57 0) (opened bufS 0) = some (1, 0) ∧
    answered (.slice 1 0 0xFFFFFFFF 0xFFFFFFFF) (opened bufS 0) = some (1, 0) := by decide

/-- V-SK1, V-SK2, V-SK3. -/
theorem test_skip_to_end :
    answered (.skip 0 24) (opened bufA 0) = some (0, 0) ∧ ctxAfter (.skip 0 24) (opened bufA 0) 0 = ⟨true, 0, 24, 24⟩ := by
  decide
theorem test_skip_too_far :
    answered (.skip 0 25) (opened bufA 0) = some (1, 0) ∧ answered (.skip 0 0xFFFFFFFF) (opened bufA 4) = some (1, 0) := by
  decide

/-- V-L1 and V-L8. -/
theorem test_rdlit_value :
    answered (.rdlit 0) (opened bufA 6) = some (0, 2021) ∧ ctxAfter (.rdlit 0) (opened bufA 6) 0 = ⟨true, 0, 24, 21⟩ ∧
    answered (.rdlit 0) (opened bufL8 0) = some (0, 0xFFFFFFFFFFFFFFFF) := by decide

/-- V-L4, V-L12 and V-L10: no next group, no group at all, a value of 2^64. -/
theorem test_rdlit_faults :
    answered (.rdlit 0) (opened [0xF0] 0) = some (2, 0) ∧ answered (.rdlit 0) (opened [] 0) = some (2, 0) ∧
    answered (.rdlit 0) (opened bufL10 0) = some (5, 0) := by decide

/-- V-X5: an illegal width comes before an invalid cursor; V-X6: after a fault a READ that would succeed is refused. -/
theorem test_order_of_checks :
    answered (.read 1 0) (launch bufA) = some (3, 0) ∧
    answered (.read 0 1) { opened bufA 3 with fault := 1 } = some (1, 0) := by decide

/-- 20_memory.md R27: `MEM[0]` = 0xD2 is stream bits 0 to 7, the most significant first; bit 24 does not exist (R31). -/
theorem test_stream_bits :
    (List.range 8).map (launch bufA).streamBit =
      [some true, some true, some false, some true, some false, some false, some true, some false] ∧
    (launch bufA).streamBit 24 = none := by decide

/-- Outside the buffer the model stops; no run gets there (10_state.md R14). -/
theorem test_outside_buffer : exec (.read 0 1) { opened bufA 0 with nbytes := 0 } = .fault .outsideBuffer := by rfl

/-- 70_reset_and_hazards.md R95: a launch of more than `MEM_BYTES` bytes is refused. -/
theorem test_launch_too_large :
    step ({ State.reset with build := { Build.standard with memBytes := 2 } }.facing (.reset (some bufA))) =
      .refused .launchTooLarge := by rfl

/-! ## Witnesses: the hypotheses of the obligations can be met -/

/-- A build with all 16 contexts. -/
def build16 : Build := { Build.standard with ncur := 16 }

theorem witness_DecodeOfEncode :
    (Instr.openView 15).WellFormed build16 ∧ (Instr.read 15 64).WellFormed build16 ∧
    (Instr.read 0 1).WellFormed build16 ∧ (Instr.slice 15 14 0xFFFFFFFF 0xFFFFFFFF).WellFormed build16 ∧
    (Instr.rdlit 7).WellFormed Build.standard := by decide

theorem witness_EncodeOfDecode : decode Build.standard 0x05530000000B00000010#80 = .ok (.slice 5 3 11 16) := by rfl

/-- Both verdicts occur: V-X1 is illegal, V-OP1 is not. -/
theorem witness_IllegalWordsExactly :
    IllegalWord Build.standard 0x00000000000000000000#80 ∧ ¬ IllegalWord Build.standard 0x01000000000000000000#80 ∧
    ((launch bufA).facing (.command 0)).host = [.command 0] ∧ ((launch bufA).facing (.command 0)).rsp = none ∧
    ((launch bufA).facing (.command 0)).fault = 0#4 := by
  refine ⟨.inl (.inl (by decide)), ?_, by decide⟩
  simp [IllegalWord, Build.standard]

/-- Each row of the opcode table has a word. -/
theorem witness_OpcodeTableRows :
    decode Build.standard 0x01700000000000000000#80 = .ok (.openView 7) ∧
    decode Build.standard 0x02070000004000000000#80 = .ok (.read 7 64) ∧
    decode Build.standard 0x03070000000000000000#80 = .ok (.rem 7) ∧
    decode Build.standard 0x04070000000000000000#80 = .ok (.pos 7) ∧
    decode Build.standard 0x0577FFFFFFFFFFFFFFFF#80 = .ok (.slice 7 7 0xFFFFFFFF 0xFFFFFFFF) ∧
    decode Build.standard 0x0607FFFFFFFF00000000#80 = .ok (.skip 7 0xFFFFFFFF) ∧
    decode Build.standard 0x07070000000000000000#80 = .ok (.rdlit 7) := ⟨rfl, rfl, rfl, rfl, rfl, rfl, rfl⟩

/-- P1, command 4: `RDLIT c0` issued with no response outstanding. -/
def issuing : State := (opened bufA 6).facing (.command 0x07000000000000000000)

theorem witness_StepRunsDecodedCommand :
    issuing.host = [.command 0x07000000000000000000] ∧ issuing.rsp = none ∧
    decode issuing.build 0x07000000000000000000 = .ok (.rdlit 0) := ⟨rfl, rfl, rfl⟩

/-- A legal command and an illegal one (V-RD11). -/
theorem witness_IssuedCommandIsExec :
    issuing.host = [.command (encode (.rdlit 0))] ∧ issuing.rsp = none ∧
    ((opened bufA 0).facing (.command 0x02000000000000000000)).host = [.command (encode (.read 0 0))] := by decide

theorem witness_OneResponsePerCommand :
    issuing.host = [.command 0x07000000000000000000] ∧ issuing.rsp = none ∧ (∃ t, step issuing = .next t) ∧
    issuing.fault.toNat ≤ 5 ∧ ∃ t, step (issuing.setCtx 0 Ctx.reset) = .next t ∧ t.fault = 4#4 :=
  ⟨rfl, rfl, ⟨_, rfl⟩, by decide, _, rfl, rfl⟩

/-- A response is outstanding. -/
def answering : State := (opened bufA 3).respond 6

theorem witness_HostMovesOtherThanReset :
    ((answering.facing (.command 0)).host = [.command 0] ∧ (answering.facing (.command 0)).rsp = some ⟨0, 6⟩) ∧
    ((answering.facing .takeResponse).host = [.takeResponse] ∧ (answering.facing .takeResponse).rsp = some ⟨0, 6⟩) ∧
    (((launch bufA).facing .takeResponse).host = [.takeResponse] ∧ ((launch bufA).facing .takeResponse).rsp = none) ∧
    answering.host = [] := by decide

/-- A reset over the same buffer, one over an empty sequence, one over `MEM_BYTES` bytes. -/
theorem witness_ResetMoveStartsLaunch :
    (answering.facing (.reset none)).host = [.reset none] ∧
    ((answering.facing (.reset (some []))).host = [.reset (some [])] ∧
      ([] : List Byte).length ≤ answering.build.memBytes.toNat) ∧
    bufA.length ≤ { Build.standard with memBytes := 3 }.memBytes.toNat := by decide

theorem witness_OpenMakesRootView : (launch bufA).fault = 0#4 ∧ (7#4).toNat < (launch bufA).build.ncur := by decide

/-- Widths 1, all that remains, and 64 (V-RD1, V-RD3, V-RD6). -/
theorem witness_ReadAnswersField :
    ((opened bufA 23).Ready (.read 0 1) ∧ ((opened bufA 23).ctx 0).Inside (opened bufA 23).nbytes ∧
      (1#32).toNat ≤ ((opened bufA 23).ctx 0).len.toNat - ((opened bufA 23).ctx 0).pos.toNat) ∧
    ((opened bufA 0).Ready (.read 0 24) ∧ ((opened bufA 0).ctx 0).Inside (opened bufA 0).nbytes ∧
      (24#32).toNat ≤ ((opened bufA 0).ctx 0).len.toNat - ((opened bufA 0).ctx 0).pos.toNat) ∧
    ((opened bufL8 24).Ready (.read 0 64) ∧ ((opened bufL8 24).ctx 0).Inside (opened bufL8 24).nbytes ∧
      (64#32).toNat ≤ ((opened bufL8 24).ctx 0).len.toNat - ((opened bufL8 24).ctx 0).pos.toNat) := by decide

theorem witness_RemAnswersRemaining :
    (opened bufA 24).Ready (.rem 0) ∧ ((opened bufA 24).ctx 0).Inside (opened bufA 24).nbytes := by decide

theorem witness_PosAnswersPosition :
    (opened bufA 24).Ready (.pos 0) ∧ ((opened bufA 24).ctx 0).Inside (opened bufA 24).nbytes := by decide

/-- A window onto another context, and an empty one at the very end onto the source itself (V-SL4). -/
theorem witness_SliceMakesWindow :
    ((opened bufS 0).Ready (.slice 1 0 29 27) ∧ (29#32).toNat + (27#32).toNat ≤ ((opened bufS 0).ctx 0).len.toNat) ∧
    ((opened bufS 0).Ready (.slice 0 0 56 0) ∧ (56#32).toNat + (0#32).toNat ≤ ((opened bufS 0).ctx 0).len.toNat) ∧
    ((opened bufS 0).ctx 0).Inside (opened bufS 0).nbytes := by decide

/-- All that remains, and nothing (V-SK1, V-SK4). -/
theorem witness_SkipAdvances :
    (opened bufA 0).Ready (.skip 0 24) ∧ (opened bufA 24).Ready (.skip 0 0) ∧
    ((opened bufA 0).ctx 0).Inside (opened bufA 0).nbytes ∧ ((opened bufA 24).ctx 0).Inside (opened bufA 24).nbytes ∧
    (24#32).toNat ≤ ((opened bufA 0).ctx 0).len.toNat - ((opened bufA 0).ctx 0).pos.toNat ∧
    (0#32).toNat ≤ ((opened bufA 24).ctx 0).len.toNat - ((opened bufA 24).ctx 0).pos.toNat := by decide

/-- The part common to the statements about RDLIT on `c0`. -/
def RdlitPremises (s : State) (m : Nat) : Prop :=
  s.Ready (.rdlit 0) ∧ (s.ctx 0).Inside s.nbytes ∧ s.LiteralEnds ((s.ctx 0).base.toNat + (s.ctx 0).pos.toNat) m ∧
    5 * m ≤ (s.ctx 0).len.toNat - (s.ctx 0).pos.toNat

/-- V-L1 (3 groups), V-L7 (16 groups, the largest value, no bit to spare), V-L8 (17 groups that fit). -/
theorem witness_RdlitAnswersValue :
    (RdlitPremises (opened bufA 6) 3 ∧ (opened bufA 6).literalValue 6 3 < 2 ^ 64) ∧
    (RdlitPremises (opened bufL7 0) 16 ∧ (opened bufL7 0).literalValue 0 16 < 2 ^ 64) ∧
    RdlitPremises (opened bufL8 0) 17 ∧ (opened bufL8 0).literalValue 0 17 < 2 ^ 64 := by
  unfold RdlitPremises State.LiteralEnds
  decide +kernel

/-- V-L10: exactly 2^64. -/
theorem witness_RdlitOverflows :
    RdlitPremises (opened bufL10 0) 17 ∧ 2 ^ 64 ≤ (opened bufL10 0).literalValue 0 17 := by
  unfold RdlitPremises State.LiteralEnds
  decide +kernel

/-- V-L12 (no group at all), V-L4 (one group), and 17 groups worth 2^64 and more. -/
theorem witness_RdlitTruncated :
    ((opened [] 0).Ready (.rdlit 0) ∧ ((opened [] 0).ctx 0).Inside (opened [] 0).nbytes ∧
      (opened [] 0).NoGroupEnds 0 0) ∧
    ((opened [0xF0] 0).Ready (.rdlit 0) ∧ ((opened [0xF0] 0).ctx 0).Inside (opened [0xF0] 0).nbytes ∧
      (opened [0xF0] 0).NoGroupEnds 0 1 ∧ (opened [0xF0] 0).literalValue 0 1 < 2 ^ 64) ∧
    (opened bufFlags 0).Ready (.rdlit 0) ∧ ((opened bufFlags 0).ctx 0).Inside (opened bufFlags 0).nbytes ∧
      (opened bufFlags 0).NoGroupEnds 0 17 ∧ ¬ (opened bufFlags 0).literalValue 0 17 < 2 ^ 64 := by
  unfold State.NoGroupEnds
  decide +kernel

/-- After a READ that failed (V-X6): POS, and an illegal word. -/
theorem witness_RefusedAfterFault :
    let s := { opened bufA 3 with fault := 1, host := [.command 0] }
    s.host = [.command 0] ∧ s.rsp = none ∧ s.fault ≠ 0#4 := by decide

/-- One case for each place in the order (V-X6, V-X5, V-X4), and a command that passes the prologue. -/
theorem witness_OrderOfChecks :
    { opened bufA 3 with fault := 1 }.fault ≠ 0#4 ∧
    ((launch bufA).fault = 0#4 ∧ ¬ (Instr.read 1 0).WellFormed (launch bufA).build) ∧
    ((Instr.read 1 3).WellFormed (launch bufA).build ∧
      ∃ cs ∈ (Instr.read 1 3).source, ((launch bufA).ctx cs).valid = false) ∧
    (opened bufA 0).Ready (.read 0 1) ∧ ∃ t, exec (.read 0 1) (opened bufA 0) = .next t :=
  ⟨by decide, by decide, ⟨by decide, 1, rfl, by decide⟩, by decide, _, rfl⟩

/-- V-X2: a word that is no command's. -/
def issuingIllegal : State := (opened bufA 0).facing (.command 0x08000000000000000000)

/-- V-RD4, V-X2, and V-L4 issued as a word. -/
theorem witness_FaultEntryChangesFaultOnly :
    ((opened bufA 0).fault = 0#4 ∧ ∃ t, exec (.read 0 25) (opened bufA 0) = .next t ∧ t.fault ≠ 0#4) ∧
    (issuingIllegal.host = [.command 0x08000000000000000000] ∧ issuingIllegal.rsp = none ∧
      issuingIllegal.fault = 0#4 ∧ ∃ t, step issuingIllegal = .next t ∧ t.fault ≠ 0#4) ∧
    ∃ t, step ((opened [0xF0] 0).facing (.command 0x07000000000000000000)) = .next t ∧ t.fault ≠ 0#4 :=
  ⟨⟨by decide, _, rfl, by decide⟩, ⟨rfl, rfl, rfl, _, rfl, by decide⟩, _, rfl, by decide⟩

/-- Each of the three cases of R78. -/
theorem witness_OutOfBoundsExactly :
    (opened bufA 0).fault = 0#4 ∧
    ((opened bufA 0).Ready (.read 0 25) ∧ (opened bufA 0).Shortage (.read 0 25)) ∧
    ((opened bufA 0).Ready (.skip 0 25) ∧ (opened bufA 0).Shortage (.skip 0 25)) ∧
    ((opened bufA 0).Ready (.slice 1 0 24 1) ∧ (opened bufA 0).Shortage (.slice 1 0 24 1)) := by decide

theorem witness_InvalidCursorExactly :
    (opened bufA 0).fault = 0#4 ∧ (Instr.slice 2 1 0 0).WellFormed (opened bufA 0).build ∧
    ∃ cs ∈ (Instr.slice 2 1 0 0).source, ((opened bufA 0).ctx cs).valid = false :=
  ⟨by decide, by decide, 1, rfl, by decide⟩

theorem witness_RdlitAbsentIsIllegal :
    { opened bufA 0 with build := noRdlit }.build.hasRdlit = false ∧ (opened bufA 0).fault = 0#4 ∧
    (0x07000000000000000000#80).extractLsb' 72 8 = 0x07#8 ∧
    (0x03000000000000000000#80).extractLsb' 72 8 ≠ 0x07#8 := by decide

theorem witness_FirstCommandIsOpen :
    (∀ c : CtxId, ((launch bufA).ctx c).valid = false) ∧ (launch bufA).fault = 0#4 ∧
    (∀ cd, (Instr.pos 0) ≠ .openView cd) ∧ (Instr.pos 0).WellFormed (launch bufA).build ∧
    ¬ (Instr.pos 8).WellFormed (launch bufA).build := by
  refine ⟨by decide, by decide, by simp, by decide, by decide⟩

theorem witness_QueriesArePure :
    ((opened bufA 4).Ready (.rem 0) ∧ ∃ t, exec (.rem 0) (opened bufA 4) = .next t ∧ t.fault = 0#4) ∧
    ¬ (opened bufA 4).Ready (.pos 1) ∧ ∃ t, exec (.pos 1) (opened bufA 4) = .next t ∧ t.fault = 4#4 :=
  ⟨⟨by decide, _, rfl, rfl⟩, by decide, _, rfl, rfl⟩

theorem witness_MovingCommandsFrame :
    (∃ t, exec (.read 0 8) (opened bufA 5) = .next t) ∧ (∃ t, exec (.skip 0 25) (opened bufA 0) = .next t) ∧
    ∃ t, exec (.rdlit 0) (opened bufA 6) = .next t := ⟨⟨_, rfl⟩, ⟨_, rfl⟩, _, rfl⟩

theorem witness_MakingCommandsFrame :
    (∃ t, exec (.openView 7) (opened bufS 0) = .next t ∧ t.fault = 0#4) ∧
    ∃ t, exec (.slice 1 0 57 0) (opened bufS 0) = .next t ∧ t.fault ≠ 0#4 :=
  ⟨⟨_, rfl, rfl⟩, _, rfl, by decide⟩

theorem witness_BufferConstantInLaunch : (∃ t, step issuing = .next t) ∧ issuing.NoResetNext :=
  ⟨⟨_, rfl⟩, fun _ _ h => by cases h⟩

/-- V-SL12: `c1` is the whole window of `c0`; and a shifted window whose position makes up for it. -/
def twoViews : State := (opened bufS 22).setCtx 1 { valid := true, base := 20, len := 30, pos := 2 }

theorem witness_OverlappingViewsAgree :
    (∃ t u, exec (.read 0 11) twoViews = .next t ∧ exec (.read 1 11) twoViews = .next u ∧ t.fault = 0#4 ∧
      u.fault = 0#4) ∧
    (twoViews.ctx 0).base.toNat + (twoViews.ctx 0).pos.toNat =
      (twoViews.ctx 1).base.toNat + (twoViews.ctx 1).pos.toNat := by
  exact ⟨⟨_, _, rfl, rfl, rfl, rfl⟩, by decide⟩

theorem witness_StepKeepsInv : issuing.Inv ∧ ∃ t, step issuing = .next t := ⟨by decide, _, rfl⟩

theorem witness_InvStateSteps :
    issuing.Inv ∧ issuing.NextLaunchFits ∧ ((launch bufA).facing (.reset (some bufS))).Inv ∧
    ((launch bufA).facing (.reset (some bufS))).NextLaunchFits := by
  refine ⟨by decide, fun _ _ h => (by cases h), by decide, fun bs ms h => ?_⟩
  cases h
  decide

/-- Each clause: READ, SKIP and RDLIT that complete, a READ that faults, a REM, an OPEN of the context and of another. -/
theorem witness_PositionNeverDecreases :
    (∃ t, exec (.read 0 1) (opened bufA 5) = .next t ∧ t.fault = 0#4) ∧
    (∃ t, exec (.skip 0 0) (opened bufA 5) = .next t ∧ t.fault = 0#4) ∧
    (∃ t, exec (.rdlit 0) (opened bufA 6) = .next t ∧ t.fault = 0#4) ∧
    (∃ t, exec (.read 0 20) (opened bufA 5) = .next t ∧ t.fault ≠ 0#4) ∧
    (∃ t, exec (.rem 0) (opened bufA 5) = .next t) ∧
    (∃ t, exec (.openView 0) (opened bufA 5) = .next t ∧ t.fault = 0#4 ∧ (Instr.openView 0).dest = some 0) ∧
    (∃ t, exec (.openView 1) (opened bufA 5) = .next t) ∧ (Instr.openView 1).dest ≠ some 0 ∧
    (Instr.read 0 1).dest ≠ some 0 ∧ (Instr.skip 0 0).dest ≠ some 0 ∧ (Instr.rdlit 0).dest ≠ some 0 :=
  ⟨⟨_, rfl, rfl⟩, ⟨_, rfl, rfl⟩, ⟨_, rfl, rfl⟩, ⟨_, rfl, by decide⟩, ⟨_, rfl⟩, ⟨_, rfl, rfl, rfl⟩, ⟨_, rfl⟩,
    by decide, by decide, by decide, by decide⟩

theorem witness_FaultStickyUntilReset :
    let s := { opened bufA 3 with fault := 2, host := [.command 0x01100000000000000000] }
    (∃ t, step s = .next t) ∧ s.NoResetNext ∧ s.fault ≠ 0#4 :=
  ⟨⟨_, rfl⟩, fun _ _ h => (by cases h), by decide⟩

theorem witness_OnlyResetInvalidates :
    (∃ t, step issuing = .next t) ∧ issuing.NoResetNext ∧ (issuing.ctx 0).valid = true :=
  ⟨⟨_, rfl⟩, fun _ _ h => (by cases h), by decide⟩

/-- `OPEN c0`, its response taken, then `REM c0`. -/
def threeMoves : State :=
  { launch bufA with host := [.command 0x01000000000000000000, .takeResponse, .command 0x03000000000000000000] }

theorem witness_SuccessCertifiesHistory :
    threeMoves.Inv ∧ (∀ bytes, HostMove.reset bytes ∉ threeMoves.host) ∧
    ∃ u t, Host.Core.run Sys2Proof.core 1 threeMoves = .next u ∧ Host.Core.run Sys2Proof.core 2 u = .next t ∧
      t.rsp = some ⟨0#4, 24#64⟩ := by
  refine ⟨by decide, by simp [threeMoves], _, _, rfl, rfl, rfl⟩

/-- Two states that differ in the fields of an invalid context. -/
theorem witness_InvalidFieldsUnobservable :
    issuing.Indistinct (issuing.setCtx 5 { valid := false, base := 1, len := 2, pos := 3 }) ∧
    issuing.setCtx 5 { valid := false, base := 1, len := 2, pos := 3 } ≠ issuing := by
  unfold State.Indistinct
  decide

theorem witness_CommandIgnoresHost : ∃ t, exec (.rdlit 0) (opened bufA 6) = .next t := ⟨_, rfl⟩

/-- The last field that fits, and the first that does not. -/
theorem witness_FieldIsBitSum :
    16 + 8 ≤ 8 * (launch bufA).nbytes.toNat ∧ 8 * (launch bufA).nbytes.toNat < 16 + 9 ∧ 0 < 9 ∧ 9 = 1 + 8 := by decide

theorem witness_SliceContainment :
    (twoViews.ctx 1).Inside twoViews.nbytes ∧ ∃ t, exec (.slice 2 1 3 27) twoViews = .next t ∧ t.fault = 0#4 :=
  ⟨by decide, _, rfl, rfl⟩

/-- V-SL3: the window ends at the buffer's end; READ takes all of it. -/
theorem witness_SubViewReadsSourceBits :
    ((opened bufS 0).ctx 0).Inside (opened bufS 0).nbytes ∧
    (∃ t, exec (.slice 1 0 29 27) (opened bufS 0) = .next t ∧ t.fault = 0#4) ∧ 1 ≤ (27#32).toNat ∧
    (27#32).toNat ≤ 64 ∧ (27#32).toNat ≤ (27#32).toNat :=
  ⟨by decide, ⟨_, rfl, rfl⟩, by decide, by decide, by decide⟩

/-- Each of the three cases, at its bounds: 24 bits of room against 8 + 16, 24 + 1 and 25 + 1. -/
theorem witness_ReadComposition :
    ((opened bufA 0).ctx 0).Inside (opened bufA 0).nbytes ∧ (opened bufA 0).Ready (.read 0 (8 + 16)) ∧
    (opened bufA 0).Ready (.read 0 (24 + 1)) ∧ (opened bufA 0).Ready (.read 0 (25 + 1)) ∧
    ((opened bufA 0).ctx 0).len.toNat - ((opened bufA 0).ctx 0).pos.toNat = 24 ∧
    (opened bufL8 0).Ready (.read 0 (63 + 1)) ∧ ((opened bufL8 0).ctx 0).Inside (opened bufL8 0).nbytes ∧
    (63#32).toNat + (1#32).toNat ≤ 64 := by decide

/-- V-SL11: the window may lie behind the position; and both take all there is. -/
theorem witness_SliceAndSkipCommute :
    (1#4) ≠ 0#4 ∧ (opened bufS 0).Ready (.slice 1 0 0 8) ∧
    (0#32).toNat + (8#32).toNat ≤ ((opened bufS 0).ctx 0).len.toNat ∧
    (40#32).toNat ≤ ((opened bufS 0).ctx 0).len.toNat - ((opened bufS 0).ctx 0).pos.toNat ∧
    (opened bufS 0).Ready (.slice 1 0 0 56) ∧ (0#32).toNat + (56#32).toNat ≤ ((opened bufS 0).ctx 0).len.toNat ∧
    (56#32).toNat ≤ ((opened bufS 0).ctx 0).len.toNat - ((opened bufS 0).ctx 0).pos.toNat := by decide

/-- A run that fits, the empty run, and a run that does not fit. -/
theorem witness_SkipIsRunOfReads :
    (opened bufA 0).Ready (.skip 0 24) ∧ (opened bufA 0).Ready (.skip 0 0) ∧ (opened bufA 0).Ready (.skip 0 25) ∧
    ((opened bufA 0).ctx 0).Inside (opened bufA 0).nbytes ∧
    ((∀ w ∈ [8#32, 16#32], 1 ≤ w.toNat ∧ w.toNat ≤ 64) ∧ ([8#32, 16#32].map BitVec.toNat).sum = (24#32).toNat) ∧
    (([] : List Offset).map BitVec.toNat).sum = (0#32).toNat ∧
    (∀ w ∈ [24#32, 1#32], 1 ≤ w.toNat ∧ w.toNat ≤ 64) ∧ ([24#32, 1#32].map BitVec.toNat).sum = (25#32).toNat :=
  ⟨by decide, by decide, by decide, by decide, ⟨by simp, by decide⟩, by decide, by simp, by decide⟩

theorem witness_RdlitIsReadLoop :
    ((opened bufA 6).ctx 0).Inside (opened bufA 6).nbytes ∧
    ∃ t, exec (.rdlit 0) (opened bufA 6) = .next t ∧ t.rsp = some ⟨0#4, 2021#64⟩ := ⟨by decide, _, rfl, rfl⟩

theorem witness_RdlitCompletesOnlyOnLiteral :
    ((opened bufL7 0).ctx 0).Inside (opened bufL7 0).nbytes ∧
    ∃ t, exec (.rdlit 0) (opened bufL7 0) = .next t ∧ t.fault = 0#4 := ⟨by decide, _, rfl, rfl⟩

end Sys2Proof.Tests
end

section
/-!
PROOFS about the state of the BCU (spec/10_state.md): what a step does for each move of the host, the frame of a command,
the launch invariant, and that neither the fields of an invalid context nor the host's side can be observed.
-/

namespace Sys2Proof.Machine

open Sys2Proof

variable {s t : State} {i : Instr}

/-! ## A step, move by move -/

theorem step_idle (h : s.host = []) : step s = .next s := by
  simp only [step, s.poll_idle h]

theorem step_takeResponse {ms : List HostMove} (h : s.host = .takeResponse :: ms) :
    step s = .next { s with host := ms }.transfer := by
  simp only [step, s.poll_takeResponse h]

theorem step_reset {bytes : Option (List Byte)} {ms : List HostMove} (h : s.host = .reset bytes :: ms) :
    step s = { s with host := ms }.hostReset bytes := by
  simp only [step, s.poll_reset h]

theorem step_waiting {w : Cmd} {ms : List HostMove} {r : Rsp} (h : s.host = .command w :: ms) (hr : s.rsp = some r) :
    step s = .next s.transfer := by
  simp only [step, s.poll_waiting h hr]

theorem step_command {w : Cmd} {ms : List HostMove} (h : s.host = .command w :: ms) (hr : s.rsp = none)
    (hd : decode s.build w = .ok i) : step s = exec i { s with host := ms } := by
  simp only [step, s.poll_command h hr, State.accept, hd]

/-- What decides a step: the host's next move; for a command word, whether a response is outstanding and whether the word
decodes. -/
theorem State.move_cases (s : State) :
    s.host = [] ∨ (∃ ms, s.host = .takeResponse :: ms) ∨ (∃ bytes ms, s.host = .reset bytes :: ms) ∨
      (∃ w ms r, s.host = .command w :: ms ∧ s.rsp = some r) ∨
      (∃ w ms e, s.host = .command w :: ms ∧ s.rsp = none ∧ decode s.build w = .error e) ∨
      ∃ w ms i, s.host = .command w :: ms ∧ s.rsp = none ∧ decode s.build w = .ok i := by
  rcases s.host with _ | ⟨w | _ | bytes, ms⟩
  · exact .inl rfl
  · cases s.rsp with
    | some r => exact .inr (.inr (.inr (.inl ⟨w, ms, r, rfl, rfl⟩)))
    | none =>
      cases hd : decode s.build w with
      | error e => exact .inr (.inr (.inr (.inr (.inl ⟨w, ms, e, rfl, rfl, hd⟩))))
      | ok i => exact .inr (.inr (.inr (.inr (.inr ⟨w, ms, i, rfl, rfl, hd⟩))))
  · exact .inr (.inl ⟨ms, rfl⟩)
  · exact .inr (.inr (.inl ⟨bytes, ms, rfl⟩))

/-- Settles O6, by the equation of a step that accepts a command. -/
theorem stepRunsDecodedCommand : Obligations.StepRunsDecodedCommand :=
  fun _ _ _ _ h hr hd => step_command h hr hd

/-! ## What a command answers -/

theorem exec_refuses (h : s.fault ≠ 0#4) : exec i s = .next s.refuse := by
  rcases exec_prologue s i with ⟨-, e⟩ | ⟨h0, -⟩ | ⟨h0, -⟩ | ⟨h0, -⟩
  · exact e
  all_goals exact absurd h0 h

theorem exec_illegal (h : s.fault = 0#4) (hw : ¬ i.WellFormed s.build) :
    exec i s = .next (s.raise .illegalCommand) := by
  rcases exec_prologue s i with ⟨h0, -⟩ | ⟨-, -, e⟩ | ⟨-, hw', -⟩ | ⟨-, hw', -⟩
  · exact absurd h h0
  · exact e
  all_goals exact absurd hw' hw

theorem exec_invalidCursor (h : s.fault = 0#4) (hw : i.WellFormed s.build)
    (hv : ∃ cs ∈ i.source, (s.ctx cs).valid = false) : exec i s = .next (s.raise .invalidCursor) := by
  rcases exec_prologue s i with ⟨h0, -⟩ | ⟨-, hw', -⟩ | ⟨-, -, -, e⟩ | ⟨-, -, hs⟩
  · exact absurd h h0
  · exact absurd hw hw'
  · exact e
  · obtain ⟨cs, hcs, hf⟩ := hv
    simp [hs cs hcs] at hf

/-- A command that answers a next state is refused, raises some fault, or completes. -/
theorem exec_answers (h : exec i s = .next t) :
    (s.fault ≠ 0#4 ∧ t = s.refuse) ∨ (s.fault = 0#4 ∧ ∃ x, t = s.raise x) ∨ (s.Ready i ∧ Completes s i t) := by
  rcases exec_next h with h | ⟨h0, -, e⟩ | ⟨h0, -, -, e⟩ | ⟨⟨h0, -, -⟩, x, -, e⟩ | h
  · exact .inl h
  · exact .inr (.inl ⟨h0, _, e⟩)
  · exact .inr (.inl ⟨h0, _, e⟩)
  · exact .inr (.inl ⟨h0, x, e⟩)
  · exact .inr (.inr h)

/-- `FAULT` after a command says whether it completed; if it did not, every context is as it was. -/
theorem exec_completes_or_keeps (h : exec i s = .next t) :
    (t.fault = 0#4 ∧ s.Ready i ∧ Completes s i t) ∨ (t.fault ≠ 0#4 ∧ ∀ j, t.ctx j = s.ctx j) := by
  rcases exec_answers h with ⟨h0, rfl⟩ | ⟨-, x, rfl⟩ | ⟨hr, hc⟩
  · exact .inr ⟨h0, fun _ => rfl⟩
  · exact .inr ⟨x.code_ne_zero, fun _ => rfl⟩
  · obtain ⟨-, -, -, hf, -⟩ := hc.same
    exact .inl ⟨hf.trans hr.1, hr, hc⟩

theorem exec_fault (h : exec i s = .next t) : t.fault = s.fault ∨ s.fault = 0#4 := by
  rcases exec_answers h with ⟨-, rfl⟩ | ⟨h0, -⟩ | ⟨⟨h0, -, -⟩, -⟩
  · exact .inl rfl
  all_goals exact .inr h0

theorem State.sameWorld_of_eq (hb : t.build = s.build) (hn : t.nbytes = s.nbytes) (hm : t.mem = s.mem)
    (hh : t.host = s.host) (hr : t.responses = s.responses) : s.SameWorld t :=
  ⟨hb, hn, hm, fun a => by simp only [State.memRead, hn, hm], hh, hr⟩

/-- No command changes the build, the launch, a byte of the buffer or the host's side. -/
theorem exec_sameWorld (h : exec i s = .next t) : s.SameWorld t := by
  rcases exec_answers h with ⟨-, rfl⟩ | ⟨-, x, rfl⟩ | ⟨-, hc⟩
  · exact State.sameWorld_of_eq rfl rfl rfl rfl rfl
  · exact State.sameWorld_of_eq rfl rfl rfl rfl rfl
  · obtain ⟨hb, hn, hm, -, hh, hr, -⟩ := hc.same
    exact State.sameWorld_of_eq hb hn hm hh hr

/-- Which contexts a command may change: only when it completes, its destination and the one it moves. -/
theorem exec_ctx (h : exec i s = .next t) (j : CtxId) :
    t.ctx j = s.ctx j ∨ (t.fault = 0#4 ∧ i.dest = some j) ∨
      (i.mover = some j ∧ t.ctx j = { s.ctx j with pos := (t.ctx j).pos }) := by
  rcases exec_completes_or_keeps h with ⟨hf, -, hc⟩ | ⟨-, hk⟩
  · rcases hc.ctx j with he | hd | ⟨hm, p, hp⟩
    · exact .inl he
    · exact .inr (.inl ⟨hf, hd⟩)
    · exact .inr (.inr ⟨hm, by rw [hp]⟩)
  · exact .inl (hk j)

/-- Settles O22: of all outcomes of a command only the failed source check leaves `FAULT` = 4. -/
theorem invalidCursorExactly : Obligations.InvalidCursorExactly := by
  intro s i h0
  constructor
  · rintro ⟨t, h, hf⟩
    rcases exec_next h with ⟨h, -⟩ | ⟨-, -, rfl⟩ | ⟨-, hw, hv, -⟩ | ⟨-, x, hx, rfl⟩ | ⟨-, hc⟩
    · exact absurd h0 h
    · exact absurd (BcuFault.code_injective (x := .illegalCommand) (y := .invalidCursor) hf) (by decide)
    · exact ⟨hw, hv⟩
    · obtain rfl : x = .invalidCursor := BcuFault.code_injective hf
      cases hx
    · obtain ⟨-, -, -, hs, -⟩ := hc.same
      rw [hs, h0] at hf
      exact absurd hf (by decide)
  · rintro ⟨hw, hv⟩
    exact ⟨_, exec_invalidCursor h0 hw hv, rfl⟩

/-- Settles O28: READ, SKIP and RDLIT have no destination and move the context `cs`. -/
theorem movingCommandsFrame : Obligations.MovingCommandsFrame := by
  intro s t i cs hi h
  obtain ⟨hm, hd⟩ : i.mover = some cs ∧ i.dest = none := by
    rcases hi with ⟨w, rfl⟩ | ⟨n, rfl⟩ | rfl <;> exact ⟨rfl, rfl⟩
  refine ⟨?_, fun j hj => ?_, exec_fault h, exec_sameWorld h⟩
  · rcases exec_ctx h cs with he | ⟨-, hd'⟩ | ⟨-, hp⟩
    · rw [he]
    · simp [hd] at hd'
    · exact hp
  · rcases exec_ctx h j with he | ⟨-, hd'⟩ | ⟨hm', -⟩
    · exact he
    · simp [hd] at hd'
    · simp [hm, hj.symm] at hm'

/-- Settles O29: OPEN and SLICE move no context and have the destination `cd`. -/
theorem makingCommandsFrame : Obligations.MakingCommandsFrame := by
  intro s t i cd hi h
  obtain ⟨hm, hd⟩ : i.mover = none ∧ i.dest = some cd := by
    rcases hi with rfl | ⟨cs, start, len, rfl⟩ <;> exact ⟨rfl, rfl⟩
  refine ⟨fun j hj => ?_, fun hf => ?_, exec_fault h, exec_sameWorld h⟩
  · rcases exec_ctx h j with he | ⟨-, hd'⟩ | ⟨hm', -⟩
    · exact he
    · simp [hd, hj.symm] at hd'
    · simp [hm] at hm'
  · rcases exec_ctx h cd with he | ⟨hf', -⟩ | ⟨hm', -⟩
    · exact he
    · exact absurd hf' hf
    · simp [hm] at hm'

/-! ## How a completed command moves or makes a cursor -/

/-- `d` is a distance by which command `i` may advance the position of its source (10_state.md R15). -/
def Advances : Instr → Nat → Prop
  | .read _ w, d => 1 ≤ w.toNat ∧ d = w.toNat
  | .skip _ n, d => d = n.toNat
  | .rdlit _, d => ∃ m, 1 ≤ m ∧ d = 5 * m
  | _, _ => False

/-- A position that advances by no more than remains does not wrap around (40_cursor_commands.md R63). -/
theorem Ctx.toNat_advance {c : Ctx} {d : Nat} (h : d ≤ c.remaining) :
    (c.pos + BitVec.ofNat 32 d).toNat = c.pos.toNat + d := by
  have hl := c.len.isLt
  have hp := c.pos.isLt
  simp only [Ctx.remaining] at h
  rw [BitVec.toNat_add, BitVec.toNat_ofNat, Nat.add_mod_mod, Nat.mod_eq_of_lt (by omega)]

/-- A completed command moves its cursor forward, by its own distance and by no more than remains. -/
theorem Completes.advances (hr : s.Ready i) (h : Completes s i t) {j : CtxId} (hm : i.mover = some j) :
    ∃ d, Advances i d ∧ d ≤ (s.ctx j).remaining ∧ (t.ctx j).pos.toNat = (s.ctx j).pos.toNat + d ∧
      t.ctx j = { s.ctx j with pos := (t.ctx j).pos } := by
  obtain ⟨-, hw, -⟩ := hr
  cases h with
  | read cs w v enough =>
    obtain rfl : cs = j := Option.some.inj hm
    exact ⟨w.toNat, ⟨hw.2.1, rfl⟩, enough, by simpa using Ctx.toNat_advance enough, by simp⟩
  | skip cs n enough =>
    obtain rfl : cs = j := Option.some.inj hm
    exact ⟨n.toNat, rfl, enough, by simpa using Ctx.toNat_advance enough, by simp⟩
  | rdlit cs m acc one enough =>
    obtain rfl : cs = j := Option.some.inj hm
    have enough : 5 * m ≤ (s.ctx cs).remaining := by omega
    exact ⟨5 * m, ⟨m, one, rfl⟩, enough, by simpa [BitVec.ofNat_add] using Ctx.toNat_advance enough, by simp⟩
  | openView | rem | pos | slice => simp [Instr.mover] at hm

/-- The context a completed command writes whole is valid and starts at position 0. -/
theorem Completes.dest_fresh (h : Completes s i t) {j : CtxId} (hd : i.dest = some j) :
    (t.ctx j).valid = true ∧ (t.ctx j).pos = 0#32 := by
  cases h with
  | openView cd =>
    obtain rfl : cd = j := Option.some.inj hd
    simp [State.rootView]
  | slice cd cs start len =>
    obtain rfl : cd = j := Option.some.inj hd
    simp [Ctx.window]
  | read | rem | pos | skip | rdlit => simp [Instr.dest] at hd

/-- Settles O35: a completed command advances its cursor or starts one at 0; any other outcome keeps every context. -/
theorem positionNeverDecreases : Obligations.PositionNeverDecreases := by
  intro s t i j h
  refine ⟨fun hd hf => ?_, ?_, fun hd => ?_, fun hf => ?_⟩
  · rcases exec_completes_or_keeps h with ⟨-, -, hc⟩ | ⟨hf', -⟩
    · exact (hc.dest_fresh hd).2
    · exact absurd hf hf'
  · rintro (hf | rfl | rfl)
    · rcases exec_completes_or_keeps h with ⟨hf', -⟩ | ⟨-, hk⟩
      · exact absurd hf' hf
      · exact hk j
    all_goals simpa [Instr.dest, Instr.mover] using exec_ctx h j
  · rcases exec_completes_or_keeps h with ⟨-, hr, hc⟩ | ⟨-, hk⟩
    · rcases hc.ctx j with he | hd' | ⟨hm, -⟩
      · simp [he]
      · exact absurd hd' hd
      · obtain ⟨d, -, -, hp, he⟩ := hc.advances hr hm
        exact ⟨by omega, he⟩
    · simp [hk j]
  · rcases exec_completes_or_keeps h with ⟨-, hr, hc⟩ | ⟨hf', -⟩
    · refine ⟨fun w hi => ?_, fun n hi => ?_, fun hi => ?_⟩ <;> subst hi <;>
        obtain ⟨d, ha, -, hp, -⟩ := hc.advances hr rfl
      · obtain ⟨hw, rfl⟩ := ha
        exact ⟨hw, hp⟩
      · cases ha
        exact hp
      · obtain ⟨m, hm, rfl⟩ := ha
        exact ⟨m, hm, hp⟩
    · exact absurd hf hf'

/-! ## What only a reset does -/

theorem State.illegalWord_keeps (h : s.illegalWord = .next t) :
    t.ctxs = s.ctxs ∧ (s.fault ≠ 0#4 → t.fault = s.fault) := by
  rw [s.illegalWord_eq] at h
  split at h <;> cases h
  · exact ⟨rfl, fun _ => rfl⟩
  · next h0 => exact ⟨rfl, fun h => absurd h h0⟩

/-- Without a reset a step keeps every context and a `FAULT` that is set, unless it runs a command. -/
theorem step_keeps_or_runs (h : step s = .next t) (hn : s.NoResetNext) :
    (t.ctxs = s.ctxs ∧ (s.fault ≠ 0#4 → t.fault = s.fault)) ∨ ∃ i ms, exec i { s with host := ms } = .next t := by
  rcases step_next h with ⟨-, rfl⟩ | ⟨ms, -, rfl⟩ | ⟨bytes, ms, hr, -⟩ | ⟨w, ms, r, -, -, rfl⟩ |
    ⟨w, ms, e, -, -, -, he⟩ | ⟨w, ms, i, -, -, -, he⟩
  · exact .inl ⟨rfl, fun _ => rfl⟩
  · exact .inl (by simp [State.transfer_eq])
  · exact absurd hr (hn bytes ms)
  · exact .inl (by simp [State.transfer_eq])
  · exact .inl (State.illegalWord_keeps (s := { s with host := ms }) he)
  · exact .inr ⟨i, ms, he⟩

/-- Settles O36: a command met by a set `FAULT` is refused. -/
theorem faultStickyUntilReset : Obligations.FaultStickyUntilReset := by
  intro s t h hn h0
  rcases step_keeps_or_runs h hn with ⟨hc, hf⟩ | ⟨i, ms, he⟩
  · exact ⟨hf h0, hc⟩
  · rw [exec_refuses (s := { s with host := ms }) h0] at he
    cases he
    exact ⟨rfl, rfl⟩

/-- Settles O37: a command writes a context whole only to make it valid. -/
theorem onlyResetInvalidates : Obligations.OnlyResetInvalidates := by
  intro s t j h hn hv
  rcases step_keeps_or_runs h hn with ⟨hc, -⟩ | ⟨i, ms, he⟩
  · rw [State.ctx, hc]
    exact hv
  · rcases exec_completes_or_keeps he with ⟨-, -, hc⟩ | ⟨-, hk⟩
    · rcases hc.ctx j with e | hd | ⟨-, p, e⟩
      · rw [e]
        exact hv
      · exact (hc.dest_fresh hd).1
      · rw [e]
        exact hv
    · rw [hk j]
      exact hv

/-! ## Reset -/

/-- A byte sequence that fits the capacity fits `NBYTES` (00_scope.md R5). -/
theorem toNat_length_of_fits {bs : List Byte} {b : Build} (h : bs.length ≤ b.memBytes.toNat) :
    (BitVec.ofNat 29 bs.length).toNat = bs.length := by
  have := b.memBytes.isLt
  rw [BitVec.toNat_ofNat, Nat.mod_eq_of_lt (by omega)]

/-- A launch over a byte sequence reads back that sequence, and nothing beyond it. -/
theorem State.memRead_restart_placeBytes {bs : List Byte} (h : bs.length ≤ s.build.memBytes.toNat) (a : Nat) :
    (s.restart (BitVec.ofNat 29 bs.length) (placeBytes bs)).memRead a = bs[a]? := by
  have hn := toNat_length_of_fits h
  by_cases ha : a < bs.length
  · rw [State.memRead_inside _ (by simpa [hn] using ha), List.getElem?_eq_getElem ha]
    exact congrArg some (lookup_placeBytes bs a ha)
  · rw [State.memRead_outside _ (by simpa [hn] using ha), List.getElem?_eq_none (Nat.not_lt.mp ha)]

/-- Settles O10: a reset move is a restart, whatever the state was. -/
theorem resetMoveStartsLaunch : Obligations.ResetMoveStartsLaunch := by
  refine ⟨⟨fun i => by rw [State.ctx_reset]; rfl, rfl, rfl⟩, fun s ms h => ?_, fun s ms bs h hf => ?_⟩
  · refine ⟨{ s with host := ms }.restart s.nbytes s.mem, (step_reset h).trans rfl, ?_⟩
    simp
  · have run : { s with host := ms }.hostReset (some bs) =
        .next ({ s with host := ms }.restart (BitVec.ofNat 29 bs.length) (placeBytes bs)) := if_pos hf
    refine ⟨_, (step_reset h).trans run, rfl, toNat_length_of_fits hf, State.memRead_restart_placeBytes hf, ?_⟩
    simp

/-! ## The launch invariant -/

/-- Settles O32: at reset no context is valid. -/
theorem invAtReset : Obligations.InvAtReset := by
  refine ⟨by decide, fun i hv => ?_, fun i _ => State.ctx_reset i, by decide, ?_, ?_⟩
  · simp [Ctx.reset] at hv
  all_goals simp [State.reset]

/-- A transfer moves the outstanding response, a legal one, to the record. -/
theorem State.Inv.transfer (h : s.Inv) : s.transfer.Inv := by
  obtain ⟨hl, hv, hz, hf, hr, hrs⟩ := h
  rw [State.transfer_eq]
  refine ⟨hl, hv, hz, hf, by simp, fun r hm => ?_⟩
  rcases List.mem_append.mp hm with hm | hm
  · exact hrs r hm
  · exact (hr r (Option.mem_toList.mp hm)).2

theorem State.Inv.restart (h : s.Inv) {n : ByteCount} {m : Memory} (hl : (s.restart n m).LaunchOk) :
    (s.restart n m).Inv := by
  obtain ⟨-, -, -, -, -, hrs⟩ := h
  refine ⟨hl, fun i hv => ?_, fun i _ => s.ctx_restart n m i, by simp, by simp, hrs⟩
  simp [Ctx.reset] at hv

theorem State.Inv.hostReset {bytes : Option (List Byte)} (h : s.Inv) (he : s.hostReset bytes = .next t) : t.Inv := by
  have ⟨⟨hb, hm, hc, hn⟩, _⟩ := h
  rcases s.hostReset_cases bytes with ⟨-, e⟩ | ⟨bs, -, hf, e⟩ | ⟨bs, -, -, e⟩ <;> rw [e] at he <;> cases he
  · exact h.restart ⟨hb, hm, hc, hn⟩
  · have hlen := toNat_length_of_fits hf
    exact h.restart ⟨hb, placeBytes_wf bs, by simpa [hlen] using placeBytes_bounds bs, by simpa [hlen] using hf⟩

/-- A response to a fault keeps the invariant: no context changes. -/
theorem State.Inv.answerFault (h : s.Inv) {f : Status} (hf : f.toNat ≤ 5) :
    ({ s with fault := f }.answer f 0#64).Inv := by
  obtain ⟨hl, hv, hz, -, -, hrs⟩ := h
  exact ⟨hl, hv, hz, hf, by simpa [Rsp.Legal] using hf, hrs⟩

theorem State.Inv.raise (h : s.Inv) (x : BcuFault) : (s.raise x).Inv := h.answerFault x.code_le_five

theorem State.Inv.refuse (h : s.Inv) : s.refuse.Inv := by
  have ⟨_, _, _, hf, _⟩ := h
  exact h.answerFault hf

/-- The root view lies in the buffer: `8 * NBYTES` fits the length field (00_scope.md R5). -/
theorem State.rootView_inside (s : State) : s.rootView.Inside s.nbytes := by
  have := s.nbytes.isLt
  refine ⟨by simp [State.rootView], ?_⟩
  simp only [State.rootView, BitVec.toNat_ofNat, BitVec.ofNat_eq_ofNat]
  omega

/-- A window that fits its source lies in the buffer with it; its base does not wrap around (40_cursor_commands.md R63). -/
theorem Ctx.window_inside {c : Ctx} {n : ByteCount} {start len : Offset} (h : c.Inside n)
    (hf : start.toNat + len.toNat ≤ c.len.toNat) : (c.window start len).Inside n := by
  have := n.isLt
  obtain ⟨-, h2⟩ := h
  refine ⟨by simp [Ctx.window], ?_⟩
  simp only [Ctx.window, BitVec.toNat_add]
  omega

/-- The view a completed command writes whole lies in the buffer. -/
theorem Completes.dest_inside (hi : s.Inv) (hr : s.Ready i) (h : Completes s i t) {j : CtxId}
    (hd : i.dest = some j) : (t.ctx j).Inside s.nbytes := by
  obtain ⟨-, hv, -⟩ := hi
  obtain ⟨-, -, hs⟩ := hr
  cases h with
  | openView cd =>
    obtain rfl : cd = j := Option.some.inj hd
    simpa using s.rootView_inside
  | slice cd cs start len fits =>
    obtain rfl : cd = j := Option.some.inj hd
    simpa using Ctx.window_inside (hv cs (hs cs rfl)) fits
  | read | rem | pos | skip | rdlit => simp [Instr.dest] at hd

/-- A legal command writes no context register that does not exist (10_state.md R12). -/
theorem written_lt_ncur {b : Build} (hw : i.WellFormed b) {j : CtxId} (h : i.dest = some j ∨ i.mover = some j) :
    j.toNat < b.ncur := by
  cases i <;> simp_all [Instr.dest, Instr.mover]

theorem State.Inv.completes (hi : s.Inv) (hr : s.Ready i) (h : Completes s i t) : t.Inv := by
  obtain ⟨hb, hn, hm, hf, -, hrs, d, hd⟩ := h.same
  have ⟨hl, hv, hz, hf5, _, hlegal⟩ := hi
  have ⟨h0, hw, hsrc⟩ := hr
  refine ⟨?_, fun j hj => ?_, fun j hj => ?_, by rw [hf]; exact hf5, ?_, by rw [hrs]; exact hlegal⟩
  · simpa only [State.LaunchOk, hb, hn, hm] using hl
  · rw [hn]
    rcases h.ctx j with e | hd | ⟨hm, -⟩
    · rw [e] at hj ⊢
      exact hv j hj
    · exact h.dest_inside hi hr hd
    · obtain ⟨d, -, hle, hp, e⟩ := h.advances hr hm
      rw [e] at hj ⊢
      obtain ⟨h1, h2⟩ := hv j hj
      simp only [Ctx.remaining] at hle
      exact ⟨by simp only [hp]; omega, h2⟩
  · rw [hb] at hj
    rcases h.ctx j with e | hd | ⟨hm, -⟩
    · rw [e, hz j hj]
    · exact absurd (written_lt_ncur hw (.inl hd)) (Nat.not_lt.mpr hj)
    · exact absurd (written_lt_ncur hw (.inr hm)) (Nat.not_lt.mpr hj)
  · simp [hd, hf, h0, Rsp.Legal]

theorem State.Inv.exec (hi : s.Inv) (h : exec i s = .next t) : t.Inv := by
  rcases exec_answers h with ⟨-, rfl⟩ | ⟨-, x, rfl⟩ | ⟨hr, hc⟩
  · exact hi.refuse
  · exact hi.raise x
  · exact hi.completes hr hc

/-- Settles O33: each kind of step keeps the invariant, which does not speak of the host's moves. -/
theorem stepKeepsInv : Obligations.StepKeepsInv := by
  intro s t hi h
  have hi' (ms : List HostMove) : { s with host := ms }.Inv := hi
  rcases step_next h with ⟨-, rfl⟩ | ⟨ms, -, rfl⟩ | ⟨bytes, ms, -, he⟩ | ⟨w, ms, r, -, -, rfl⟩ |
    ⟨w, ms, e, -, -, -, he⟩ | ⟨w, ms, i, -, -, -, he⟩
  · exact hi
  · exact (hi' ms).transfer
  · exact (hi' ms).hostReset he
  · exact hi.transfer
  · rw [State.illegalWord_eq] at he
    split at he <;> cases he
    · exact (hi' ms).refuse
    · exact (hi' ms).raise .illegalCommand
  · exact (hi' ms).exec he

/-! ## Progress -/

/-- The bits that remain in a view inside the buffer are in the buffer. -/
theorem Ctx.Inside.fits {c : Ctx} {n : ByteCount} (h : c.Inside n) {d : Nat} (hd : d ≤ c.remaining) :
    c.address + d ≤ 8 * n.toNat := by
  obtain ⟨h1, h2⟩ := h
  simp only [Ctx.remaining] at hd
  simp only [Ctx.address]
  omega

/-- Inside the buffer no command stops. -/
theorem exec_answers_of_inv (hi : s.Inv) (i : Instr) : ∃ t, exec i s = .next t := by
  rcases exec_prologue s i with ⟨-, e⟩ | ⟨-, -, e⟩ | ⟨-, -, -, e⟩ | hr
  · exact ⟨_, e⟩
  · exact ⟨_, e⟩
  · exact ⟨_, e⟩
  have ⟨_, hv, _⟩ := hi
  have ⟨_, hw, hs⟩ := hr
  cases i with
  | openView cd => exact ⟨_, exec_openView_ready hr⟩
  | rem cs => exact ⟨_, exec_rem_ready hr⟩
  | pos cs => exact ⟨_, exec_pos_ready hr⟩
  | slice cd cs start len =>
    rw [exec_slice_ready hr]
    split <;> exact ⟨_, rfl⟩
  | skip cs n =>
    rw [exec_skip_ready hr]
    split <;> exact ⟨_, rfl⟩
  | read cs w =>
    rw [exec_read_ready hr]
    split
    · exact ⟨_, rfl⟩
    · next hlt =>
      have enough : w.toNat ≤ (s.ctx cs).remaining := by simpa [Ctx.tooFew] using hlt
      obtain ⟨v, hf, -⟩ := s.field_inside ((hv cs (hs cs rfl)).fits enough)
      exact ⟨_, s.withField_some hf _⟩
  | rdlit cs =>
    rw [exec_rdlit_ready hr]
    rcases s.literalLoop_inside ((hv cs (hs cs rfl)).fits (d := 5 * ((s.ctx cs).remaining / 5)) (by omega))
      (fun p acc => .next ((s.setPos cs (BitVec.ofNat 32 p)).respond acc)) 0 with e | e | ⟨m, v, -, -, e⟩
    all_goals exact ⟨_, e⟩

/-- Settles O34: only a reset with too many bytes, which the host does not offer, would stop the model. -/
theorem invStateSteps : Obligations.InvStateSteps := by
  intro s hi hfits
  rcases s.move_cases with h | ⟨ms, h⟩ | ⟨bytes, ms, h⟩ | ⟨w, ms, r, h, hr⟩ | ⟨w, ms, e, h, hr, hd⟩ | ⟨w, ms, i, h, hr, hd⟩
  · exact ⟨_, step_idle h⟩
  · exact ⟨_, step_takeResponse h⟩
  · rw [step_reset h]
    rcases State.hostReset_cases { s with host := ms } bytes with ⟨-, e⟩ | ⟨bs, -, -, e⟩ | ⟨bs, rfl, hlt, -⟩
    · exact ⟨_, e⟩
    · exact ⟨_, e⟩
    · exact absurd (hfits bs ms h) (Nat.not_le.mpr hlt)
  · exact ⟨_, step_waiting h hr⟩
  · exact ⟨_, step_illegal h hr hd⟩
  · rw [step_command h hr hd]
    exact exec_answers_of_inv (s := { s with host := ms }) hi i

/-! ## What cannot be observed -/

/-- `t` is `s` in all a command looks at: the build, the launch, `FAULT`, and the contexts that are valid. -/
structure State.Agree (s t : State) : Prop where
  build : t.build = s.build
  nbytes : t.nbytes = s.nbytes
  mem : t.mem = s.mem
  fault : t.fault = s.fault
  valid : ∀ i, (t.ctx i).valid = (s.ctx i).valid
  ctx : ∀ i, (s.ctx i).valid = true → t.ctx i = s.ctx i

/-- A command has one effect in `s` and in `t`: it stops in both, or it leaves the same `FAULT` and response and, of each
context, writes the same value in both or leaves it in both. -/
inductive SameEffect (s t : State) : Result → Result → Prop
  | next {s' t' : State} (fault : t'.fault = s'.fault) (rsp : t'.rsp = s'.rsp)
      (ctx : ∀ j, t'.ctx j = s'.ctx j ∨ (s'.ctx j = s.ctx j ∧ t'.ctx j = t.ctx j)) :
      SameEffect s t (.next s') (.next t')
  | stop (r : Fault) : SameEffect s t (.fault r) (.fault r)

theorem SameEffect.raise (x : BcuFault) : SameEffect s t (.next (s.raise x)) (.next (t.raise x)) :=
  .next rfl rfl fun _ => .inr ⟨rfl, rfl⟩

theorem SameEffect.refuse (h : t.fault = s.fault) : SameEffect s t (.next s.refuse) (.next t.refuse) :=
  .next h (by simp [h]) fun _ => .inr ⟨rfl, rfl⟩

theorem SameEffect.respond (h : t.fault = s.fault) (d : Data) :
    SameEffect s t (.next (s.respond d)) (.next (t.respond d)) :=
  .next h rfl fun _ => .inr ⟨rfl, rfl⟩

theorem SameEffect.setCtx (h : t.fault = s.fault) (i : CtxId) (c : Ctx) (d : Data) :
    SameEffect s t (.next ((s.setCtx i c).respond d)) (.next ((t.setCtx i c).respond d)) := by
  refine .next h rfl fun j => ?_
  by_cases hj : j = i
  · exact .inl (by simp [hj])
  · exact .inr (by simp [State.ctx_setCtx_other _ hj])

theorem SameEffect.setPos (h : t.fault = s.fault) {cs : CtxId} (hc : t.ctx cs = s.ctx cs) (p : Offset) (d : Data) :
    SameEffect s t (.next ((s.setPos cs p).respond d)) (.next ((t.setPos cs p).respond d)) := by
  simpa only [State.setPos, hc] using SameEffect.setCtx h cs { s.ctx cs with pos := p } d

/-- A command depends on what it looks at alone. -/
theorem exec_sameEffect (h : s.Agree t) (i : Instr) : SameEffect s t (exec i s) (exec i t) := by
  rcases exec_prologue s i with ⟨h0, e⟩ | ⟨h0, hw, e⟩ | ⟨h0, hw, ⟨cs, hcs, hv⟩, e⟩ | hr
  · rw [e, exec_refuses (by rwa [h.fault])]
    exact .refuse h.fault
  · rw [e, exec_illegal (by rwa [h.fault]) (by rwa [h.build])]
    exact .raise _
  · rw [e, exec_invalidCursor (by rwa [h.fault]) (by rwa [h.build]) ⟨cs, hcs, by rwa [h.valid]⟩]
    exact .raise _
  have ⟨h0, hw, hs⟩ := hr
  have source (cs : CtxId) (hcs : cs ∈ i.source) : t.ctx cs = s.ctx cs := h.ctx cs (hs cs hcs)
  have hr' : t.Ready i :=
    ⟨h.fault.trans h0, by rwa [h.build], fun cs hcs => (h.valid cs).trans (hs cs hcs)⟩
  cases i with
  | openView cd =>
    rw [exec_openView_ready hr, exec_openView_ready hr', show t.rootView = s.rootView by simp [State.rootView, h.nbytes]]
    exact .setCtx h.fault ..
  | rem cs =>
    rw [exec_rem_ready hr, exec_rem_ready hr', source cs rfl]
    exact .respond h.fault _
  | pos cs =>
    rw [exec_pos_ready hr, exec_pos_ready hr', source cs rfl]
    exact .respond h.fault _
  | slice cd cs start len =>
    rw [exec_slice_ready hr, exec_slice_ready hr', source cs rfl]
    split
    · exact .raise _
    · exact .setCtx h.fault ..
  | skip cs n =>
    rw [exec_skip_ready hr, exec_skip_ready hr', source cs rfl]
    split
    · exact .raise _
    · exact .setPos h.fault (source cs rfl) ..
  | read cs w =>
    rw [exec_read_ready hr, exec_read_ready hr', source cs rfl]
    split
    · exact .raise _
    · simp only [State.withField, State.field_congr h.nbytes h.mem]
      cases s.field (s.ctx cs).address w.toNat with
      | none => exact .stop _
      | some v => exact .setPos h.fault (source cs rfl) ..
  | rdlit cs =>
    rw [exec_rdlit_ready hr, exec_rdlit_ready hr', source cs rfl]
    rcases State.literalLoop_pair h.nbytes h.mem (s.ctx cs).base.toNat
      (fun p acc => .next ((s.setPos cs (BitVec.ofNat 32 p)).respond acc))
      (fun p acc => .next ((t.setPos cs (BitVec.ofNat 32 p)).respond acc))
      ((s.ctx cs).remaining / 5) (s.ctx cs).pos.toNat 0 with ⟨e, e'⟩ | ⟨e, e'⟩ | ⟨e, e'⟩ | ⟨m, v, -, -, e, e'⟩ <;>
      rw [e, e']
    · exact .raise _
    · exact .raise _
    · exact .stop _
    · exact .setPos h.fault (source cs rfl) ..

/-- In two states that agree a command answers next states with one effect, or stops for one reason. -/
theorem exec_agree_cases (h : s.Agree t) (i : Instr) :
    (∃ s' t', exec i s = .next s' ∧ exec i t = .next t' ∧ SameEffect s t (.next s') (.next t')) ∨
      ∃ r, exec i s = .fault r ∧ exec i t = .fault r := by
  have he := exec_sameEffect h i
  generalize exec i s = a, exec i t = b at he ⊢
  cases he with
  | next hf hr hc => exact .inl ⟨_, _, rfl, rfl, .next hf hr hc⟩
  | stop r => exact .inr ⟨r, rfl, rfl⟩

/-- Settles O40: of the host's side a command looks at nothing and changes nothing but the response. -/
theorem commandIgnoresHost : Obligations.CommandIgnoresHost := by
  intro s t i hs rs q h
  have agree : s.Agree { s with host := hs, responses := rs, rsp := q } :=
    ⟨rfl, rfl, rfl, rfl, fun _ => rfl, fun _ _ => rfl⟩
  rcases exec_agree_cases agree i with ⟨s', u, e, e', he⟩ | ⟨r, e, -⟩
  · obtain rfl : s' = t := by
      rw [e] at h
      cases h
      rfl
    obtain ⟨hf, hr, hc⟩ := he
    obtain ⟨hb, hn, hm, -⟩ := exec_sameWorld e
    obtain ⟨hb', hn', hm', -, hh', hr'⟩ := exec_sameWorld e'
    have ctxs : u.ctxs = s'.ctxs := State.ctxs_ext fun j => (hc j).elim id fun ⟨hj, hj'⟩ => hj'.trans hj.symm
    rw [e']
    cases u
    simp_all
  · simp [h] at e

theorem State.Indistinct.agree (h : s.Indistinct t) : s.Agree t := by
  obtain ⟨hb, hn, hm, hf, -, -, -, hc⟩ := h
  exact ⟨hb, hn, hm, hf, fun i => (hc i).1, fun i => (hc i).2⟩

theorem State.Indistinct.host (h : s.Indistinct t) (ms : List HostMove) :
    { s with host := ms }.Indistinct { t with host := ms } := by
  obtain ⟨hb, hn, hm, hf, hr, -, hrs, hc⟩ := h
  exact ⟨hb, hn, hm, hf, hr, rfl, hrs, hc⟩

theorem State.Indistinct.transfer (h : s.Indistinct t) : s.transfer.Indistinct t.transfer := by
  obtain ⟨hb, hn, hm, hf, hr, hh, hrs, hc⟩ := h
  rw [s.transfer_eq, t.transfer_eq]
  exact ⟨hb, hn, hm, hf, rfl, hh, by rw [hr, hrs], hc⟩

theorem State.Indistinct.restart (h : s.Indistinct t) (n : ByteCount) (m : Memory) :
    (s.restart n m).Indistinct (t.restart n m) := by
  obtain ⟨hb, -, -, -, -, hh, hrs, -⟩ := h
  exact ⟨hb, rfl, rfl, rfl, rfl, hh, hrs, fun i => by simp⟩

/-- One effect on two states that cannot be told apart leaves two such states. -/
theorem State.Indistinct.of_sameEffect {s' t' : State} (h : s.Indistinct t) (hs : s.SameWorld s') (ht : t.SameWorld t')
    (he : SameEffect s t (.next s') (.next t')) : s'.Indistinct t' := by
  obtain ⟨hb, hn, hm, -, -, hh, hrs, hc⟩ := h
  obtain ⟨sb, sn, sm, -, sh, sr⟩ := hs
  obtain ⟨tb, tn, tm, -, th, tr⟩ := ht
  obtain ⟨hf, hr, hj⟩ := he
  refine ⟨by rw [tb, sb, hb], by rw [tn, sn, hn], by rw [tm, sm, hm], hf, hr, by rw [th, sh, hh], by rw [tr, sr, hrs],
    fun j => ?_⟩
  rcases hj j with e | ⟨e, e'⟩
  · rw [e]
    exact ⟨rfl, fun _ => rfl⟩
  · rw [e, e']
    exact hc j

/-- `a` and `b` are two next states that cannot be told apart, or two stops for one reason. -/
inductive IndistinctResults : Result → Result → Prop
  | next {s' t' : State} (h : s'.Indistinct t') : IndistinctResults (.next s') (.next t')
  | fault (r : Fault) : IndistinctResults (.fault r) (.fault r)
  | refused (r : Refusal) : IndistinctResults (.refused r) (.refused r)

theorem State.Indistinct.hostReset (h : s.Indistinct t) (bytes : Option (List Byte)) :
    IndistinctResults (s.hostReset bytes) (t.hostReset bytes) := by
  have ⟨hb, hn, hm, _⟩ := h
  unfold State.hostReset
  rw [hb, hn, hm]
  cases bytes with
  | none => exact .next (h.restart ..)
  | some bs =>
    dsimp only
    split
    · exact .next (h.restart ..)
    · exact .refused _

theorem State.Indistinct.illegalWord (h : s.Indistinct t) : IndistinctResults s.illegalWord t.illegalWord := by
  rw [s.illegalWord_eq, t.illegalWord_eq, h.agree.fault]
  have world (u : State) (f : Status) (r : Option Rsp) : u.SameWorld { u with fault := f, rsp := r } :=
    State.sameWorld_of_eq rfl rfl rfl rfl rfl
  split
  · exact .next (h.of_sameEffect (world ..) (world ..) (.refuse h.agree.fault))
  · exact .next (h.of_sameEffect (world ..) (world ..) (.raise _))

theorem State.Indistinct.exec (h : s.Indistinct t) (i : Instr) : IndistinctResults (exec i s) (exec i t) := by
  rcases exec_agree_cases h.agree i with ⟨s', t', e, e', he⟩ | ⟨r, e, e'⟩ <;> rw [e, e']
  · exact .next (h.of_sameEffect (exec_sameWorld e) (exec_sameWorld e') he)
  · exact .fault r

/-- The host's next move, the outstanding response and the decoder see nothing of an invalid context. -/
theorem State.Indistinct.step (h : s.Indistinct t) : IndistinctResults (step s) (step t) := by
  have ⟨hb, _, _, _, hr, hh, _⟩ := h
  rcases s.move_cases with m | ⟨ms, m⟩ | ⟨bytes, ms, m⟩ | ⟨w, ms, r, m, o⟩ | ⟨w, ms, e, m, o, d⟩ | ⟨w, ms, i, m, o, d⟩
  · rw [step_idle m, step_idle (hh.trans m)]
    exact .next h
  · rw [step_takeResponse m, step_takeResponse (hh.trans m)]
    exact .next (h.host ms).transfer
  · rw [step_reset m, step_reset (hh.trans m)]
    exact (h.host ms).hostReset bytes
  · rw [step_waiting m o, step_waiting (hh.trans m) (hr.trans o)]
    exact .next h.transfer
  · have d' : decode t.build w = .error e := by rw [hb, d]
    rw [step_illegal m o d, step_illegal (hh.trans m) (hr.trans o) d']
    simpa only [State.illegalWord_eq] using (h.host ms).illegalWord
  · rw [step_command m o d, step_command (hh.trans m) (hr.trans o) (by rw [hb, d])]
    exact (h.host ms).exec i

/-- Settles O39: the results of the two steps cannot be told apart. -/
theorem invalidFieldsUnobservable : Obligations.InvalidFieldsUnobservable := by
  intro s t h
  have hstep := h.step
  generalize step s = a, step t = b at hstep ⊢
  cases hstep with
  | next h => simpa using h
  | fault r => simp
  | refused r => simp

end Sys2Proof.Machine
end

section
/-!
PROOFS about the bit buffer (spec/20_memory.md): a field is the sum of its stream bits, what a completed READ and a
completed SLICE take from the buffer, and that the buffer is constant in a launch.
-/

namespace Sys2Proof.Machine

open Sys2Proof

variable {s t : State}

/-! ## Fields -/

/-- A field inside the buffer is the sum of R28, built up bit by bit. -/
theorem State.field_eq_fieldSum (s : State) {k w : Nat} (h : k + w ≤ 8 * s.nbytes.toNat) :
    s.field k w = some (s.fieldSum k w) := by
  induction w with
  | zero => rfl
  | succ w ih =>
    obtain ⟨b, hb, hbit⟩ := s.streamBit_inside (k := k + w) (by omega)
    simp only [State.field, ih (by omega), hb, s.fieldSum_succ, hbit]

/-- A field that reaches past the buffer lacks its last stream bit (20_memory.md R31). -/
theorem State.field_outside (s : State) {k w : Nat} (h0 : 0 < w) (h : 8 * s.nbytes.toNat < k + w) :
    s.field k w = none := by
  obtain ⟨w, rfl⟩ := Nat.exists_eq_add_one.mpr h0
  simp [State.field, s.streamBit_outside (k := k + w) (by omega)]

/-- The first `w1` bits of a field are its most significant ones. -/
theorem State.fieldSum_add (s : State) (k w1 w2 : Nat) :
    s.fieldSum k (w1 + w2) = s.fieldSum k w1 * 2 ^ w2 + s.fieldSum (k + w1) w2 := by
  induction w2 with
  | zero => simp [State.fieldSum]
  | succ w2 ih =>
    rw [← Nat.add_assoc, s.fieldSum_succ, ih, s.fieldSum_succ, pow_succ, Nat.add_assoc k]
    ring

/-- Settles O41: a field is its sum inside the buffer and absent past the end; the sum splits at any bit. -/
theorem fieldIsBitSum : Obligations.FieldIsBitSum := by
  intro s k w
  refine ⟨fun h => ⟨s.field_eq_fieldSum h, s.fieldSum_lt k w⟩, s.field_outside, ?_⟩
  rintro w1 w2 rfl
  exact s.fieldSum_add k w1 w2

/-! ## Reading and cutting a view -/

/-- A READ that completes answers the field at its cursor's address. -/
theorem exec_read_completed {cs : CtxId} {w : Offset} (h : exec (.read cs w) s = .next t) (hf : t.fault = 0#4) :
    ∃ v, s.field (s.ctx cs).address w.toNat = some v ∧ t.rsp = some ⟨0#4, BitVec.ofNat 64 v⟩ := by
  rcases exec_completes_or_keeps h with ⟨-, -, hc⟩ | ⟨hf', -⟩
  · cases hc with
    | read _ _ v _ bits => exact ⟨v, bits, rfl⟩
  · exact absurd hf hf'

/-- Settles O31: both READs answer the field at one address. -/
theorem overlappingViewsAgree : Obligations.OverlappingViewsAgree := by
  intro s t u i j w ht hu hft hfu hbit
  obtain ⟨v, hv, et⟩ := exec_read_completed ht hft
  obtain ⟨v', hv', eu⟩ := exec_read_completed hu hfu
  have same : (s.ctx i).address = (s.ctx j).address := hbit
  obtain rfl : v = v' := by simpa [same, hv'] using hv.symm
  rw [et, eu]

/-- A SLICE that completes fits its source and leaves the window of R60 in its destination. -/
theorem exec_slice_completed {cd cs : CtxId} {start len : Offset} (h : exec (.slice cd cs start len) s = .next t)
    (hf : t.fault = 0#4) :
    start.toNat + len.toNat ≤ (s.ctx cs).len.toNat ∧ t.ctx cd = (s.ctx cs).window start len := by
  rcases exec_completes_or_keeps h with ⟨-, -, hc⟩ | ⟨hf', -⟩
  · cases hc with
    | slice _ _ _ _ fits => exact ⟨fits, by simp⟩
  · exact absurd hf hf'

/-- The base of a window that fits a view inside the buffer does not wrap around (40_cursor_commands.md R63). -/
theorem Ctx.toNat_window_base {c : Ctx} {n : ByteCount} {start len : Offset} (h : c.Inside n)
    (hf : start.toNat + len.toNat ≤ c.len.toNat) : (c.window start len).base.toNat = c.base.toNat + start.toNat := by
  have := n.isLt
  obtain ⟨-, hend⟩ := h
  rw [Ctx.window, BitVec.toNat_add, Nat.mod_eq_of_lt (by omega)]

/-- Settles O42: the window starts `start` bits into its source and ends `start + len` bits into it. -/
theorem sliceContainment : Obligations.SliceContainment := by
  intro s t cd cs start len hi h hf
  obtain ⟨fits, hw⟩ := exec_slice_completed h hf
  obtain ⟨-, hn, -⟩ := exec_sameWorld h
  have hbase := Ctx.toNat_window_base hi fits
  have hlen : ((s.ctx cs).window start len).len = len := rfl
  rw [hw, hn, hbase, hlen]
  exact ⟨by omega, by omega, Ctx.window_inside hi fits⟩

/-! ## The buffer in a launch -/

/-- An illegal word leaves all but `FAULT` and the response as it was. -/
theorem State.illegalWord_sameWorld (h : s.illegalWord = .next t) : s.SameWorld t := by
  rw [s.illegalWord_eq] at h
  split at h <;> cases h <;> exact State.sameWorld_of_eq rfl rfl rfl rfl rfl

/-- Without a reset a step changes neither the build nor the launch. -/
theorem step_launch (h : step s = .next t) (hn : s.NoResetNext) :
    t.build = s.build ∧ t.nbytes = s.nbytes ∧ t.mem = s.mem := by
  rcases step_next h with ⟨-, rfl⟩ | ⟨ms, -, rfl⟩ | ⟨bytes, ms, hr, -⟩ | ⟨w, ms, r, -, -, rfl⟩ |
    ⟨w, ms, e, -, -, -, he⟩ | ⟨w, ms, i, -, -, -, he⟩
  · exact ⟨rfl, rfl, rfl⟩
  · simp [State.transfer_eq]
  · exact absurd hr (hn bytes ms)
  · simp [State.transfer_eq]
  · obtain ⟨hb, hnb, hm, -⟩ := State.illegalWord_sameWorld he
    exact ⟨hb, hnb, hm⟩
  · obtain ⟨hb, hnb, hm, -⟩ := exec_sameWorld he
    exact ⟨hb, hnb, hm⟩

/-- Settles O30: what an address reads as depends on `NBYTES` and the cells alone. -/
theorem bufferConstantInLaunch : Obligations.BufferConstantInLaunch := by
  intro s t h hn
  obtain ⟨hb, hnb, hm⟩ := step_launch h hn
  exact ⟨hb, hnb, hm, fun a => by simp only [State.memRead, hnb, hm]⟩

end Sys2Proof.Machine
end

section
/-!
PROOFS about the encoding (spec/30_encoding.md): a word decodes to a command exactly when the build has that command and
the word's fields are the command's; from it the two round trips, the illegal words, the rows of the opcode table, and
what a step answers to a word the host issues.
-/

namespace Sys2Proof.Machine

open Sys2Proof

variable {s t : State} {i : Instr} {b : Build} {w : Cmd}

/-! ## The decoder and the encoder -/

@[simp] theorem splitWord_encode (i : Instr) : splitWord (encode i) = fieldsOf i := splitWord_joinWord _

/-- The word whose fields are a command's is the command's word. -/
theorem encode_of_fields (h : splitWord w = fieldsOf i) : encode i = w := by
  rw [encode, ← h, joinWord_splitWord]

/-- The build's check of a command (R46 (b), (d), (e)) lets through the commands it has and refuses the others. -/
theorem admitted_cases (b : Build) (i : Instr) :
    (i.WellFormed b ∧ admitted b i = .ok i) ∨ (¬ i.WellFormed b ∧ ∃ r, admitted b i = .error r) := by
  unfold admitted
  cases hf : operandFault b i with
  | none => exact .inl ⟨(operandFault_eq_none_iff b i).mp hf, rfl⟩
  | some r => exact .inr ⟨by simp [← operandFault_eq_none_iff, hf], r, rfl⟩

/-- A word with the fields of a command decodes as the build's check of that command has it. -/
theorem decode_of_fields (h : splitWord w = fieldsOf i) : decode b w = admitted b i := by
  simp only [decode, h, commandOf_fieldsOf]

theorem decode_of_commandOf_error {r : Illegal} (h : commandOf (splitWord w) = .error r) : decode b w = .error r := by
  simp only [decode, h]

/-- A word decodes to the command whose fields it has, if the build has that command, and to no other. -/
theorem decode_eq_ok_iff : decode b w = .ok i ↔ i.WellFormed b ∧ splitWord w = fieldsOf i := by
  constructor
  · intro h
    cases hc : commandOf (splitWord w) with
    | error r => simp [decode_of_commandOf_error hc] at h
    | ok j =>
      rw [decode_of_fields (commandOf_ok hc)] at h
      rcases admitted_cases b j with ⟨hw, e⟩ | ⟨-, r, e⟩ <;> rw [e] at h <;> cases h
      exact ⟨hw, commandOf_ok hc⟩
  · rintro ⟨hw, hf⟩
    rcases admitted_cases b i with ⟨-, e⟩ | ⟨hw', -⟩
    · exact (decode_of_fields hf).trans e
    · exact absurd hw hw'

/-- Settles O2: the fields of the word are the command's own. -/
theorem decodeOfEncode : Obligations.DecodeOfEncode :=
  fun _ _ hw => decode_eq_ok_iff.mpr ⟨hw, splitWord_encode _⟩

/-- Settles O3: the fields of the word are those of the command, and a word is its fields put together. -/
theorem encodeOfDecode : Obligations.EncodeOfDecode := by
  intro b w i h
  obtain ⟨hw, hf⟩ := decode_eq_ok_iff.mp h
  exact ⟨hw, encode_of_fields hf⟩

/-- Settles O1: each word is that of its command. -/
theorem specWordsDecode : Obligations.SpecWordsDecode := ⟨rfl, rfl, rfl, rfl, rfl, rfl, rfl⟩

/-! ## The rows of the opcode table -/

/-- A word matches under a mask when each of its fields does. -/
theorem and_eq_iff_fields (w mask v : Cmd) : w &&& mask = v ↔
    (splitWord w).op &&& (splitWord mask).op = (splitWord v).op ∧
      (splitWord w).cd &&& (splitWord mask).cd = (splitWord v).cd ∧
      (splitWord w).cs &&& (splitWord mask).cs = (splitWord v).cs ∧
      (splitWord w).a &&& (splitWord mask).a = (splitWord v).a ∧
      (splitWord w).b &&& (splitWord mask).b = (splitWord v).b := by
  rw [← (Function.LeftInverse.injective joinWord_splitWord).eq_iff]
  simp only [splitWord, BitVec.extractLsb'_and, Fields.mk.injEq]

/-! A mask of ones keeps a field whole. -/

theorem opcode_and_ones (x : BitVec 8) : x &&& 0xFF#8 = x := BitVec.and_allOnes

theorem ctxId_and_ones (x : CtxId) : x &&& 0xF#4 = x := BitVec.and_allOnes

theorem offset_and_ones (x : Offset) : x &&& 0xFFFFFFFF#32 = x := BitVec.and_allOnes

/-- A width of at most 64 has none of the bits the mask of READ requires to be zero. -/
theorem and_readMask_of_le {a : Offset} (h : a.toNat ≤ 64) : a &&& 0xFFFFFF80#32 = 0#32 := by
  have low : a &&& 0x7F#32 = a := BitVec.eq_of_toNat_eq <| by
    rw [BitVec.toNat_and]
    exact (Nat.and_two_pow_sub_one_eq_mod a.toNat 7).trans (Nat.mod_eq_of_lt (by omega))
  calc a &&& 0xFFFFFF80#32 = a &&& 0x7F#32 &&& 0xFFFFFF80#32 := by rw [low]
    _ = a &&& (0x7F#32 &&& 0xFFFFFF80#32) := BitVec.and_assoc ..
    _ = 0#32 := BitVec.and_zero

/-- Settles O5: under its mask a row fixes the opcode and the fields it does not use; the mask of READ besides only bits
that no width up to 64 has. -/
theorem opcodeTableRows : Obligations.OpcodeTableRows := by
  intro b w cd cs a l
  simp only [decode_eq_ok_iff, and_eq_iff_fields]
  simp only [Instr.WellFormed, splitWord, fieldsOf, opcodeOf, BitVec.ofNat_eq_ofNat, Fields.mk.injEq,
    BitVec.reduceExtractLsb', opcode_and_ones, ctxId_and_ones, offset_and_ones, BitVec.and_zero, true_and, and_self,
    and_true]
  refine ⟨by tauto, ⟨?_, by tauto⟩, by tauto, by tauto, by tauto, by tauto, by tauto⟩
  rintro ⟨⟨hcs, h1, h64⟩, hop, hcd, hc, rfl, hl⟩
  exact ⟨⟨hop, hcd, and_readMask_of_le h64, hl⟩, hc, rfl, hcs, h1, h64⟩

/-! ## The illegal words -/

/-- The fields of a word are given ones when they are so as numbers. -/
theorem splitWord_eq_iff {f : Fields} : splitWord w = f ↔
    (w.extractLsb' 72 8).toNat = f.op.toNat ∧ (w.extractLsb' 68 4).toNat = f.cd.toNat ∧
      (w.extractLsb' 64 4).toNat = f.cs.toNat ∧ (w.extractLsb' 32 32).toNat = f.a.toNat ∧
      (w.extractLsb' 0 32).toNat = f.b.toNat := by
  obtain ⟨op, cd, cs, a, l⟩ := f
  simp only [splitWord, Fields.mk.injEq, BitVec.toNat_inj]

/-- A word with the fields of a command can only meet cases (b), (d), (e) of R46, those about the command's operands. -/
theorem illegalWord_iff_of_fields (h : splitWord w = fieldsOf i) : IllegalWord b w ↔ ¬ i.WellFormed b := by
  obtain ⟨hop, hcd, hcs, ha, hl⟩ := splitWord_eq_iff.mp h
  unfold IllegalWord
  rw [hop, hcd, hcs, ha, hl]
  cases i with
  | openView cd => simp [fieldsOf, opcodeOf]
  | read cs w => simp [fieldsOf, opcodeOf]; omega
  | rem cs => simp [fieldsOf, opcodeOf]
  | pos cs => simp [fieldsOf, opcodeOf]
  | slice cd cs start len => simp [fieldsOf, opcodeOf]; omega
  | skip cs n => simp [fieldsOf, opcodeOf]
  | rdlit cs => cases hb : b.hasRdlit <;> simp [fieldsOf, opcodeOf, hb]

theorem unusedZero_eq_error {zero : Bool} {r : Illegal} (h : unusedZero zero i = .error r) : zero = false := by
  cases zero
  · rfl
  · cases h

/-- A word the opcode map refuses meets case (a) of R46, or (c) in the row of its opcode. -/
theorem illegalWord_of_commandOf_error {r : Illegal} (h : commandOf (splitWord w) = .error r) : IllegalWord b w := by
  generalize hf : splitWord w = f at h
  obtain ⟨hop, hcd, hcs, ha, hl⟩ := splitWord_eq_iff.mp hf
  unfold IllegalWord
  rw [hop, hcd, hcs, ha, hl]
  unfold commandOf at h
  split_ifs at h with h1 h2 h3 h4 h5 h6 h7
  case neg => exact .inl (by bv_omega)
  all_goals
    have used := unusedZero_eq_error h
    refine .inr (.inr (.inl ?_))
    simp_all [← BitVec.toNat_inj, imp_iff_not_or, or_assoc]

/-- The decoder refuses exactly the illegal words. -/
theorem decode_eq_error_iff : (∃ r, decode b w = .error r) ↔ IllegalWord b w := by
  cases hc : commandOf (splitWord w) with
  | error r => exact iff_of_true ⟨r, decode_of_commandOf_error hc⟩ (illegalWord_of_commandOf_error hc)
  | ok i =>
    have hf := commandOf_ok hc
    rw [decode_of_fields hf, illegalWord_iff_of_fields hf]
    rcases admitted_cases b i with ⟨hw, e⟩ | ⟨hw, r, e⟩
    · simp [e, hw]
    · exact iff_of_true ⟨r, e⟩ hw

/-- A command the build has does not raise `IllegalCommand` (60_exceptions.md R77). -/
theorem exec_fault_ne_illegalCommand (h0 : s.fault = 0#4) (hw : i.WellFormed s.build) (h : exec i s = .next t) :
    t.fault ≠ BcuFault.illegalCommand.code := by
  intro hf
  rcases exec_next h with ⟨h', -⟩ | ⟨-, hw', -⟩ | ⟨-, -, -, rfl⟩ | ⟨-, x, hx, rfl⟩ | ⟨-, hc⟩
  · exact h' h0
  · exact hw' hw
  · exact absurd (BcuFault.code_injective (x := .invalidCursor) hf) (by decide)
  · obtain rfl : x = .illegalCommand := BcuFault.code_injective hf
    cases hx
  · obtain ⟨-, -, -, hs, -⟩ := hc.same
    exact BcuFault.code_ne_zero _ (hf.symm.trans (hs.trans h0))

/-- With `FAULT` = 0 the step that accepts a word the decoder refuses is fault entry with `IllegalCommand`. -/
theorem step_illegalCommand {ms : List HostMove} {e : Illegal} (h : s.host = .command w :: ms) (hr : s.rsp = none)
    (h0 : s.fault = 0#4) (hd : decode s.build w = .error e) :
    step s = .next ({ s with host := ms }.raise .illegalCommand) := by
  rw [step_illegal h hr hd, if_neg (not_not.mpr h0)]

/-- Settles O4: a word that does decode is a command the build has, and that raises another fault or none. -/
theorem illegalWordsExactly : Obligations.IllegalWordsExactly := by
  refine ⟨fun b w => decode_eq_error_iff, fun s w ms h hr h0 => ?_⟩
  have entry (hi : IllegalWord s.build w) : step s = .next ({ s with host := ms }.raise .illegalCommand) := by
    obtain ⟨r, hd⟩ := decode_eq_error_iff.mpr hi
    exact step_illegalCommand h hr h0 hd
  refine ⟨⟨?_, fun hi => ⟨_, entry hi, rfl⟩⟩, entry⟩
  rintro ⟨t, ht, hf⟩
  cases hd : decode s.build w with
  | error r => exact decode_eq_error_iff.mp ⟨r, hd⟩
  | ok i =>
    rw [step_command h hr hd] at ht
    exact absurd hf (exec_fault_ne_illegalCommand (s := { s with host := ms }) h0 (decode_eq_ok_iff.mp hd).1 ht)

/-- A build that differs in `HAS_RDLIT` alone has the same commands other than RDLIT. -/
theorem admitted_hasRdlit (b : Build) (c : Bool) (h : opcodeOf i ≠ 0x07#8) :
    admitted { b with hasRdlit := c } i = admitted b i := by
  cases i with
  | rdlit cs => exact absurd rfl h
  | openView | read | rem | pos | slice | skip => rfl

/-- Settles O25: of the commands only RDLIT asks for the literal decoder, and its words are those of opcode 0x07. -/
theorem rdlitAbsentIsIllegal : Obligations.RdlitAbsentIsIllegal := by
  refine ⟨fun s cs hb h0 => exec_illegal h0 (by simp [hb]), fun b w hb => ⟨fun hop => ?_, fun hop => ?_⟩⟩
  · exact decode_eq_error_iff.mpr (.inr (.inl ⟨by rw [hop]; rfl, hb⟩))
  · cases hc : commandOf (splitWord w) with
    | error r => rw [decode_of_commandOf_error hc, decode_of_commandOf_error hc]
    | ok i =>
      have hf := commandOf_ok hc
      have hi : opcodeOf i ≠ 0x07#8 := by
        have := congrArg Fields.op hf
        cases i <;> exact fun h => hop (this.trans h)
      rw [decode_of_fields hf, decode_of_fields hf, admitted_hasRdlit b true hi]

/-! ## The step that accepts a word -/

/-- Settles O7: a command the build does not have is refused after a fault and illegal otherwise, as its word is. -/
theorem issuedCommandIsExec : Obligations.IssuedCommandIsExec := by
  intro s i ms h hr
  rcases admitted_cases s.build i with ⟨hw, -⟩ | ⟨hw, r, e⟩
  · exact step_command h hr (decodeOfEncode _ i hw)
  · have hd : decode s.build (encode i) = .error r := (decode_of_fields (splitWord_encode i)).trans e
    by_cases h0 : s.fault = 0#4
    · rw [step_illegalCommand h hr h0 hd]
      exact (exec_illegal (s := { s with host := ms }) h0 hw).symm
    · rw [step_illegal h hr hd, if_pos h0]
      exact (exec_refuses (s := { s with host := ms }) h0).symm

/-- `t` presents a response of R42: its status is `FAULT`, and its data is 0 when that is not 0. -/
def State.Reports (t : State) : Prop := ∃ d, t.rsp = some ⟨t.fault, d⟩ ∧ (t.fault ≠ 0#4 → d = 0#64)

/-- An accepted word, legal or not, leaves the host's side alone, presents the response of R42 and keeps `FAULT` in its
range (10_state.md R17). -/
theorem step_accepts {ms : List HostMove} (h : s.host = .command w :: ms) (hr : s.rsp = none) (ht : step s = .next t) :
    { s with host := ms }.SameWorld t ∧ t.Reports ∧ (s.fault.toNat ≤ 5 → t.fault.toNat ≤ 5) := by
  have refused : { s with host := ms }.refuse.Reports := ⟨0#64, rfl, fun _ => rfl⟩
  have raised (x : BcuFault) : ({ s with host := ms }.raise x).Reports := ⟨0#64, rfl, fun _ => rfl⟩
  cases hd : decode s.build w with
  | error r =>
    rw [step_illegal h hr hd] at ht
    split at ht <;> cases ht
    · exact ⟨State.sameWorld_of_eq rfl rfl rfl rfl rfl, refused, id⟩
    · exact ⟨State.sameWorld_of_eq rfl rfl rfl rfl rfl, raised _, fun _ => BcuFault.code_le_five _⟩
  | ok i =>
    rw [step_command h hr hd] at ht
    refine ⟨exec_sameWorld ht, ?_⟩
    rcases exec_answers ht with ⟨-, rfl⟩ | ⟨-, x, rfl⟩ | ⟨⟨h0, -, -⟩, hc⟩
    · exact ⟨refused, id⟩
    · exact ⟨raised x, fun _ => x.code_le_five⟩
    · obtain ⟨-, -, -, hf, -, -, d, hd⟩ := hc.same
      have hf : t.fault = 0#4 := hf.trans h0
      exact ⟨⟨d, by rw [hd, hf], fun h => absurd hf h⟩, fun _ => by simp [hf]⟩

/-- Settles O8: a refusal, a fault entry and a completion each present the response of R42. -/
theorem oneResponsePerCommand : Obligations.OneResponsePerCommand := by
  intro s t w ms h hr ht
  obtain ⟨⟨-, -, -, -, hh, hresp⟩, ⟨d, hrsp, hdata⟩, hle⟩ := step_accepts h hr ht
  exact ⟨hh, hresp, _, hrsp, rfl, hdata, hle⟩

/-- Settles O9, by the equations of a step for each move. -/
theorem hostMovesOtherThanReset : Obligations.HostMovesOtherThanReset := by
  refine ⟨fun s w ms r h hr => ?_, fun s ms r h hr => ?_, fun s ms h hr => ?_, fun s h => step_idle h⟩
  · rw [step_waiting h hr, s.transfer_eq, hr]
    rfl
  · rw [step_takeResponse h, State.transfer_eq, hr]
    rfl
  · rw [step_takeResponse h, State.transfer_eq, hr]
    simp

end Sys2Proof.Machine
end

section
/-!
PROOFS about the cursor commands (spec/40_cursor_commands.md): the order of the checks, what each command that completes
answers and leaves, that REM and POS are pure, and the laws of READ against SLICE, another READ and SKIP.
-/

namespace Sys2Proof.Machine

open Sys2Proof

variable {s t : State} {i : Instr} {cd cs : CtxId} {start len w n : Offset}

/-! ## The order of the checks -/

/-- Settles O19: with a valid source no command raises `InvalidCursor`, and a legal one never `IllegalCommand`. -/
theorem orderOfChecks : Obligations.OrderOfChecks := by
  refine fun s i => ⟨exec_refuses, exec_illegal, exec_invalidCursor, fun hr t h => ?_⟩
  obtain ⟨h0, hw, hv⟩ := hr
  refine ⟨exec_fault_ne_illegalCommand h0 hw h, fun hf => ?_⟩
  obtain ⟨-, cs, hcs, hinv⟩ := (invalidCursorExactly s i h0).mp ⟨t, h, hf⟩
  simp [hv cs hcs] at hinv

/-- A command that does not pass the prologue records and answers a fault, and does nothing else. -/
theorem exec_not_ready (hr : ¬ s.Ready i) :
    ∃ f, f ≠ 0#4 ∧ exec i s = .next ({ s with fault := f }.answer f 0#64) := by
  rcases exec_prologue s i with ⟨h0, e⟩ | ⟨-, -, e⟩ | ⟨-, -, -, e⟩ | hr'
  · exact ⟨s.fault, h0, e⟩
  · exact ⟨_, BcuFault.code_ne_zero _, e⟩
  · exact ⟨_, BcuFault.code_ne_zero _, e⟩
  · exact absurd hr' hr

/-! ## OPEN and SLICE -/

/-- `8 * NBYTES` fits the length field (00_scope.md R5). -/
theorem State.toNat_rootView_len (s : State) : s.rootView.len.toNat = 8 * s.nbytes.toNat := by
  have := s.nbytes.isLt
  rw [State.rootView, BitVec.toNat_ofNat, Nat.mod_eq_of_lt (by omega)]

/-- Settles O11: OPEN has no source, so a legal one completes. -/
theorem openMakesRootView : Obligations.OpenMakesRootView := by
  intro s cd h0 hcd
  have h := exec_openView_ready (s := s) (cd := cd) ⟨h0, hcd, by simp [Instr.source]⟩
  obtain ⟨other, -, -, world⟩ := makingCommandsFrame s _ _ cd (.inl rfl) h
  refine ⟨_, h, ?_⟩
  simp only [State.ctx_respond, State.ctx_setCtx_same, s.toNat_rootView_len] at other ⊢
  exact ⟨rfl, rfl, trivial, rfl, other, rfl, rfl, world⟩

/-- A SLICE whose window fits its source writes the window (40_cursor_commands.md R60). -/
theorem exec_slice_fits (hr : s.Ready (.slice cd cs start len))
    (hf : start.toNat + len.toNat ≤ (s.ctx cs).len.toNat) :
    exec (.slice cd cs start len) s = .next ((s.setCtx cd ((s.ctx cs).window start len)).respond 0) := by
  rw [exec_slice_ready hr, if_neg (by simpa [Ctx.windowMisfit] using hf)]

/-- Settles O15: the base of a window that fits does not wrap around. -/
theorem sliceMakesWindow : Obligations.SliceMakesWindow := by
  intro s cd cs start len hr hi hf
  have h := exec_slice_fits hr hf
  obtain ⟨other, -, -, world⟩ := makingCommandsFrame s _ _ cd (.inr ⟨cs, start, len, rfl⟩) h
  refine ⟨_, h, ?_⟩
  simp only [State.ctx_respond, State.ctx_setCtx_same, Ctx.toNat_window_base hi hf] at other ⊢
  exact ⟨rfl, trivial, rfl, rfl, other, rfl, rfl, world⟩

/-! ## REM and POS -/

/-- Settles O13: REM answers what remains, which fits the data field. -/
theorem remAnswersRemaining : Obligations.RemAnswersRemaining := by
  intro s cs hr _
  refine ⟨_, exec_rem_ready hr, ?_⟩
  have := (s.ctx cs).len.isLt
  rw [BitVec.toNat_ofNat, Ctx.remaining, Nat.mod_eq_of_lt (by omega)]

/-- Settles O14: POS answers the position, and REM the rest of the view. -/
theorem posAnswersPosition : Obligations.PosAnswersPosition := by
  intro s cs hr hi
  obtain ⟨r, hrem, hrest⟩ := remAnswersRemaining s cs hr hi
  have hpos : ((s.ctx cs).pos.setWidth 64).toNat = (s.ctx cs).pos.toNat :=
    BitVec.toNat_setWidth_of_le (by decide)
  obtain ⟨hle, -⟩ := hi
  exact ⟨_, r, exec_pos_ready hr, hpos, hrem, by omega⟩

/-- REM and POS that pass the prologue answer, and do nothing else. -/
theorem exec_query_ready (hq : i = .rem cs ∨ i = .pos cs) (hr : s.Ready i) :
    ∃ d, exec i s = .next (s.respond d) := by
  rcases hq with rfl | rfl
  · exact ⟨_, exec_rem_ready hr⟩
  · exact ⟨_, exec_pos_ready hr⟩

/-- A response that stands changes nothing of what a command does and answers. -/
theorem exec_respond (s : State) (i : Instr) (d : Data) : exec i (s.respond d) = exec i s := by
  have agree : s.Agree (s.respond d) := ⟨rfl, rfl, rfl, rfl, fun _ => rfl, fun _ _ => rfl⟩
  rcases exec_agree_cases agree i with ⟨u, -, e, -, -⟩ | ⟨r, e, e'⟩
  · obtain ⟨-, -, -, -, hh, hr⟩ := exec_sameWorld e
    exact (commandIgnoresHost s u i s.host s.responses (some ⟨0#4, d⟩) e).trans (by rw [e, ← hh, ← hr])
  · rw [e, e']

/-- Settles O27: a query that passes the prologue is `respond`; one that does not records its fault. -/
theorem queriesArePure : Obligations.QueriesArePure := by
  intro s t cs q hq h
  by_cases hr : s.Ready q
  · obtain ⟨d, e⟩ := exec_query_ready hq hr
    obtain rfl : s.respond d = t := by simpa [e] using h
    have hf : (s.respond d).fault = 0#4 := hr.1
    exact ⟨rfl, iff_of_true hf hr, fun hf' => absurd hf hf', fun _ => ⟨rfl, fun i => exec_respond s i d⟩⟩
  · obtain ⟨f, hf, e⟩ := exec_not_ready hr
    obtain rfl : { s with fault := f }.answer f 0#64 = t := by simpa [e] using h
    exact ⟨rfl, iff_of_false hf hr, fun _ => rfl, fun hf' => absurd hf' hf⟩

/-! ## A cursor that moves -/

/-- `s` after a command that completes with the answer `d` and moves `c[cs]` by `n`: READ and SKIP. -/
def State.advance (s : State) (cs : CtxId) (n : Offset) (d : Data) : State :=
  (s.setPos cs ((s.ctx cs).pos + n)).respond d

section
variable (d : Data)

@[simp] theorem State.advance_nbytes : (s.advance cs n d).nbytes = s.nbytes := rfl

@[simp] theorem State.advance_ctx :
    (s.advance cs n d).ctx cs = { s.ctx cs with pos := (s.ctx cs).pos + n } := s.ctx_setPos_same cs _

theorem State.advance_sameWorld : s.SameWorld (s.advance cs n d) := State.sameWorld_of_eq rfl rfl rfl rfl rfl

/-- Moving a cursor changes no context's `valid`. -/
theorem State.advance_valid (j : CtxId) : ((s.advance cs n d).ctx j).valid = (s.ctx j).valid := by
  by_cases hj : j = cs
  · subst hj
    simp
  · exact congrArg Ctx.valid (s.ctx_setPos_other hj _)

theorem State.Ready.advance (h : s.Ready i) : (s.advance cs n d).Ready i := by
  obtain ⟨h0, hw, hv⟩ := h
  exact ⟨h0, hw, fun j hj => (State.advance_valid d j).trans (hv j hj)⟩

/-- Two moves of one cursor are one move by the sum, with the later answer. -/
theorem State.advance_advance (n' : Offset) (d' : Data) :
    (s.advance cs n d).advance cs n' d' = s.advance cs (n + n') d' := by
  simp [State.advance, State.setPos, State.setCtx, State.respond, State.answer, State.ctx, BitVec.add_assoc]

/-- A move by 0 is the answer alone. -/
theorem State.advance_zero : s.advance cs 0#32 d = s.respond d := by
  have same : s.setCtx cs (s.ctx cs) = s := by simp [State.setCtx, State.ctx]
  rw [State.advance, BitVec.add_zero]
  exact congrArg (State.respond · d) same

variable (enough : n.toNat ≤ (s.ctx cs).remaining)
include enough

theorem State.advance_pos : ((s.advance cs n d).ctx cs).pos.toNat = (s.ctx cs).pos.toNat + n.toNat := by
  simpa using Ctx.toNat_advance enough

theorem State.advance_address :
    ((s.advance cs n d).ctx cs).address = (s.ctx cs).address + n.toNat := by
  have hp := State.advance_pos d enough
  simp only [State.advance_ctx, Ctx.address] at hp ⊢
  omega

theorem State.advance_remaining :
    ((s.advance cs n d).ctx cs).remaining = (s.ctx cs).remaining - n.toNat := by
  have hp := State.advance_pos d enough
  simp only [State.advance_ctx, Ctx.remaining] at hp ⊢
  omega

theorem State.advance_inside (hi : (s.ctx cs).Inside s.nbytes) :
    ((s.advance cs n d).ctx cs).Inside (s.advance cs n d).nbytes := by
  have hp := State.advance_pos d enough
  obtain ⟨hle, hend⟩ := hi
  refine ⟨?_, by simpa using hend⟩
  rw [hp]
  simp only [State.advance_ctx, Ctx.remaining] at enough ⊢
  omega

end

/-! ## SKIP -/

theorem exec_skip_enough (hr : s.Ready (.skip cs n)) (enough : n.toNat ≤ (s.ctx cs).remaining) :
    exec (.skip cs n) s = .next (s.advance cs n 0#64) := by
  rw [exec_skip_ready hr, if_neg (by simpa [Ctx.tooFew] using enough)]
  rfl

theorem exec_skip_short (hr : s.Ready (.skip cs n)) (short : (s.ctx cs).remaining < n.toNat) :
    exec (.skip cs n) s = .next (s.raise .outOfBounds) := by
  rw [exec_skip_ready hr, if_pos (by simpa [Ctx.tooFew] using short)]

/-- Settles O16: SKIP with enough bits is a move of its cursor. -/
theorem skipAdvances : Obligations.SkipAdvances := by
  intro s cs n hr _ enough
  have h := exec_skip_enough hr enough
  obtain ⟨same, other, -, world⟩ := movingCommandsFrame s _ _ cs (.inr (.inl ⟨n, rfl⟩)) h
  refine ⟨_, h, State.advance_pos _ enough, same, other, rfl, rfl, world, ?_⟩
  rintro rfl
  rw [State.advance_zero]
  rfl

/-! ## READ -/

/-- A command with the source `cs` that passes the prologue shows that a READ of a legal width would. -/
theorem State.Ready.read (h : s.Ready i) (hs : i.source = some cs) (hw : 1 ≤ w.toNat ∧ w.toNat ≤ 64) :
    s.Ready (.read cs w) := by
  obtain ⟨h0, hwf, hv⟩ := h
  have hcs : cs.toNat < s.build.ncur := by
    cases i <;> simp_all [Instr.source]
  exact ⟨h0, ⟨hcs, hw⟩, by simpa [Instr.source] using hv cs hs⟩

/-- READ with enough bits answers the field at its cursor and moves the cursor (40_cursor_commands.md R57). -/
theorem exec_read_enough (hr : s.Ready (.read cs w)) (hi : (s.ctx cs).Inside s.nbytes)
    (enough : w.toNat ≤ (s.ctx cs).remaining) :
    exec (.read cs w) s = .next (s.advance cs w (BitVec.ofNat 64 (s.fieldSum (s.ctx cs).address w.toNat))) := by
  rw [exec_read_ready hr, if_neg (by simpa [Ctx.tooFew] using enough),
    s.withField_some (s.field_eq_fieldSum (hi.fits enough))]
  rfl

theorem exec_read_moves (hr : s.Ready (.read cs w)) (hi : (s.ctx cs).Inside s.nbytes)
    (enough : w.toNat ≤ (s.ctx cs).remaining) : ∃ d, exec (.read cs w) s = .next (s.advance cs w d) :=
  ⟨_, exec_read_enough hr hi enough⟩

theorem exec_read_short (hr : s.Ready (.read cs w)) (short : (s.ctx cs).remaining < w.toNat) :
    exec (.read cs w) s = .next (s.raise .outOfBounds) := by
  rw [exec_read_ready hr, if_pos (by simpa [Ctx.tooFew] using short)]

/-- A field of at most 64 bits fits the data field (30_encoding.md R42). -/
theorem State.toNat_ofNat_fieldSum (s : State) (k : Nat) {w : Nat} (hw : w ≤ 64) :
    (BitVec.ofNat 64 (s.fieldSum k w)).toNat = s.fieldSum k w := by
  have := s.fieldSum_lt k w
  have := Nat.pow_le_pow_right two_pos hw
  rw [BitVec.toNat_ofNat, Nat.mod_eq_of_lt (by omega)]

/-- Settles O12: READ with enough bits is a move of its cursor that answers the field. -/
theorem readAnswersField : Obligations.ReadAnswersField := by
  intro s cs w hr hi enough
  have ⟨_, ⟨_, _, hw⟩, _⟩ := hr
  have h := exec_read_enough hr hi enough
  have value := s.toNat_ofNat_fieldSum (s.ctx cs).address hw
  obtain ⟨same, other, -, world⟩ := movingCommandsFrame s _ _ cs (.inl ⟨w, rfl⟩) h
  exact ⟨_, _, h, rfl, value, value.trans_lt (s.fieldSum_lt ..), State.advance_pos _ enough, same, other, rfl, world⟩

/-- The sum of R28 depends on the bytes of the buffer alone. -/
theorem State.SameWorld.fieldSum (h : s.SameWorld t) (k w : Nat) : t.fieldSum k w = s.fieldSum k w := by
  obtain ⟨-, -, -, hm, -⟩ := h
  simp only [State.fieldSum, State.bitAt, hm]

/-! ## READ after SLICE -/

/-- Settles O43: a fresh window is a view in the buffer that stands at `base + start`. -/
theorem subViewReadsSourceBits : Obligations.SubViewReadsSourceBits := by
  intro s t cd cs start len w hi h hf h1 h64 hlen
  obtain ⟨fits, hwin⟩ := exec_slice_completed h hf
  obtain ⟨other, -, -, world⟩ := makingCommandsFrame s t _ cd (.inr ⟨cs, start, len, rfl⟩) h
  have hbase := Ctx.toNat_window_base hi fits
  have ⟨hb, hn, _⟩ := world
  have hr : t.Ready (.read cd w) := by
    rcases exec_completes_or_keeps h with ⟨-, ⟨-, ⟨hcd, -⟩, -⟩, hc⟩ | ⟨hf', -⟩
    · exact ⟨hf, ⟨hb ▸ hcd, h1, h64⟩, by simpa [Instr.source] using (hc.dest_fresh rfl).1⟩
    · exact absurd hf hf'
  have inside : (t.ctx cd).Inside t.nbytes := by
    rw [hwin, hn]
    exact Ctx.window_inside hi fits
  obtain ⟨u, d, e, hrsp, hd, -, -, -, keep, -⟩ := readAnswersField t cd w hr inside (by rw [hwin]; exact hlen)
  refine ⟨u, d, e, hrsp, ?_, fun hne => (keep cs hne.symm).trans (other cs hne.symm)⟩
  rw [hd, world.fieldSum, hwin, hbase]
  rfl

/-! ## READ after READ -/

/-- Settles O44: two moves are one move by the sum, and a field splits at any bit. -/
theorem readComposition : Obligations.ReadComposition := by
  intro s cs w1 w2 hr hi h1 h2 h64 room
  have sum : (w1 + w2).toNat = w1.toNat + w2.toNat := by
    rw [BitVec.toNat_add, Nat.mod_eq_of_lt (by omega)]
  have hr1 : s.Ready (.read cs w1) := hr.read rfl (by omega)
  have hr2 (d : Data) : (s.advance cs w1 d).Ready (.read cs w2) := (hr.read rfl (by omega)).advance d
  refine ⟨fun both => ?_, fun first second => ?_, fun neither => ?_⟩
  · have first : w1.toNat ≤ (s.ctx cs).remaining := (Nat.le_add_right ..).trans both
    refine ⟨_, _, _, _, BitVec.ofNat 64 (s.fieldSum (s.ctx cs).address (w1 + w2).toNat),
      exec_read_enough hr1 hi first, rfl, exec_read_enough (hr2 _) (State.advance_inside _ first hi) ?_, rfl, ?_, ?_⟩
    · rw [State.advance_remaining _ first]
      exact Nat.le_sub_of_add_le' both
    · rw [exec_read_enough hr hi (sum ▸ both), State.advance_advance]
      rfl
    · rw [State.advance_address _ first, (State.advance_sameWorld _).fieldSum, s.toNat_ofNat_fieldSum _ (by omega),
        s.toNat_ofNat_fieldSum _ (by omega), s.toNat_ofNat_fieldSum _ (by omega), sum, s.fieldSum_add]
  · refine ⟨exec_read_short hr (sum ▸ second), _, _, exec_read_enough hr1 hi first, rfl,
      State.advance_pos _ first, exec_read_short (hr2 _) ?_⟩
    rw [State.advance_remaining _ first]
    exact Nat.sub_lt_left_of_lt_add first second
  · exact ⟨exec_read_short hr (sum ▸ Nat.lt_add_right _ neither), exec_read_short hr1 neither⟩

/-! ## SKIP against a run of READs -/

/-- Every width is one READ takes (30_encoding.md R46 (e)). -/
def LegalWidths (ws : List Offset) : Prop := ∀ w ∈ ws, 1 ≤ w.toNat ∧ w.toNat ≤ 64

/-- The bits a run of READs asks for. -/
def totalWidth (ws : List Offset) : Nat := (ws.map BitVec.toNat).sum

@[simp] theorem totalWidth_nil : totalWidth [] = 0 := rfl

@[simp] theorem totalWidth_cons (w : Offset) (ws : List Offset) : totalWidth (w :: ws) = w.toNat + totalWidth ws := by
  simp [totalWidth]

/-- The move by a run's widths, taken one by one. -/
theorem ofNat_totalWidth_cons (w : Offset) (ws : List Offset) :
    BitVec.ofNat 32 (totalWidth (w :: ws)) = w + BitVec.ofNat 32 (totalWidth ws) := by
  simp [BitVec.ofNat_add]

theorem readAll_cons {ws : List Offset} (h : exec (.read cs w) s = .next t) :
    readAll cs (w :: ws) s = readAll cs ws t := by
  simp only [readAll, h]

/-- The READs after a fault are refused with its code, which stands in `FAULT` and in the response already. -/
theorem readAll_raise (s : State) (x : BcuFault) (ws : List Offset) :
    readAll cs ws (s.raise x) = .next (s.raise x) := by
  induction ws with
  | nil => rfl
  | cons w ws ih =>
    have refused : exec (.read cs w) (s.raise x) = .next (s.raise x) := exec_refuses x.code_ne_zero
    rw [readAll_cons refused, ih]

/-- A run of READs that fits moves the cursor by the sum of the widths; only the response tells it from one SKIP. -/
theorem readAll_enough (hr : s.Ready i) (hs : i.source = some cs) (hi : (s.ctx cs).Inside s.nbytes) {ws : List Offset}
    (hws : LegalWidths ws) (enough : totalWidth ws ≤ (s.ctx cs).remaining) :
    ∃ r, readAll cs ws s = .next { s.advance cs (BitVec.ofNat 32 (totalWidth ws)) 0#64 with rsp := r } := by
  induction ws generalizing s with
  | nil =>
    refine ⟨s.rsp, ?_⟩
    rw [totalWidth_nil, State.advance_zero]
    rfl
  | cons w ws ih =>
    obtain ⟨hw, hws⟩ := List.forall_mem_cons.mp hws
    rw [totalWidth_cons] at enough
    have first : w.toNat ≤ (s.ctx cs).remaining := by omega
    obtain ⟨d, move⟩ := exec_read_moves (hr.read hs hw) hi first
    obtain ⟨r, e⟩ := ih (hr.advance d) (State.advance_inside d first hi) hws
      (by rw [State.advance_remaining d first]; omega)
    exact ⟨r, by rw [readAll_cons move, e, State.advance_advance, ofNat_totalWidth_cons]⟩

/-- A run of READs that does not fit faults at the first width that does not, after the moves before it. -/
theorem readAll_short (hr : s.Ready i) (hs : i.source = some cs) (hi : (s.ctx cs).Inside s.nbytes) {ws : List Offset}
    (hws : LegalWidths ws) (short : (s.ctx cs).remaining < totalWidth ws) :
    ∃ k < ws.length, totalWidth (ws.take k) ≤ (s.ctx cs).remaining ∧
      (s.ctx cs).remaining < totalWidth (ws.take (k + 1)) ∧
      readAll cs ws s =
        .next ((s.advance cs (BitVec.ofNat 32 (totalWidth (ws.take k))) 0#64).raise .outOfBounds) := by
  induction ws generalizing s with
  | nil => simp at short
  | cons w ws ih =>
    obtain ⟨hw, hws⟩ := List.forall_mem_cons.mp hws
    rw [totalWidth_cons] at short
    by_cases first : w.toNat ≤ (s.ctx cs).remaining
    · obtain ⟨d, move⟩ := exec_read_moves (hr.read hs hw) hi first
      have left := State.advance_remaining d first
      obtain ⟨k, hk, hle, hlt, e⟩ := ih (hr.advance d) (State.advance_inside d first hi) hws (by omega)
      rw [left] at hle hlt
      refine ⟨k + 1, by simpa using hk, by simp; omega, by simp; omega, ?_⟩
      rw [readAll_cons move, e, State.advance_advance, List.take_succ_cons, ofNat_totalWidth_cons]
    · have first := Nat.not_le.mp first
      refine ⟨0, by simp, by simp, by simpa using first, ?_⟩
      rw [readAll_cons (exec_read_short (hr.read hs hw) first), readAll_raise, List.take_zero, totalWidth_nil,
        State.advance_zero]
      rfl

/-- Settles O46: a run of READs is the same move as SKIP, or faults where the room ends. -/
theorem skipIsRunOfReads : Obligations.SkipIsRunOfReads := by
  intro s cs n ws hr hi hws hsum
  have total : totalWidth ws = n.toNat := hsum
  by_cases enough : n.toNat ≤ (s.ctx cs).remaining
  · obtain ⟨r, e⟩ := readAll_enough hr rfl hi hws (total ▸ enough)
    have skip := exec_skip_enough hr enough
    rw [total, BitVec.ofNat_toNat, BitVec.setWidth_eq] at e
    exact ⟨_, _, skip, e, exec_sameWorld skip, State.sameWorld_of_eq rfl rfl rfl rfl rfl, rfl, fun _ => rfl,
      fun hf => absurd hr.1 hf⟩
  · have short := Nat.not_le.mp enough
    obtain ⟨k, hk, hle, hlt, e⟩ := readAll_short hr rfl hi hws (total ▸ short)
    have skip := exec_skip_short hr short
    refine ⟨_, _, skip, e, exec_sameWorld skip, State.sameWorld_of_eq rfl rfl rfl rfl rfl, rfl,
      fun hf => absurd hf (BcuFault.code_ne_zero .outOfBounds), fun _ => ⟨rfl, k, hk, hle, hlt, ?_⟩⟩
    have fit : (BitVec.ofNat 32 (totalWidth (ws.take k))).toNat = totalWidth (ws.take k) := by
      have := (s.ctx cs).len.isLt
      simp only [Ctx.remaining] at hle
      rw [BitVec.toNat_ofNat, Nat.mod_eq_of_lt (by omega)]
    exact (State.advance_pos 0#64 (fit.trans_le hle)).trans (congrArg _ fit)

end Sys2Proof.Machine
end

section
/-!
PROOFS about the literal decoder (spec/41_literal_decoder.md): a 5-bit group as flag and payload, the value of a run of
groups, the loop of R72 over a run that goes on, ends or grows past 64 bits, and the host's own loop of READs (R75).
-/

namespace Sys2Proof.Machine

open Sys2Proof

variable {s t : State} {i : Instr} {cs : CtxId} {base n p j k m : Nat} {acc : Data} {finish : Nat → Data → Result}

/-! ## One group -/

theorem State.groupFlag_le_one (s : State) (k : Nat) : s.groupFlag k ≤ 1 := s.bitAt_le_one k

theorem State.groupPayload_lt (s : State) (k : Nat) : s.groupPayload k < 16 := s.fieldSum_lt (k + 1) 4

theorem State.fieldSum_one (s : State) (k : Nat) : s.fieldSum k 1 = s.groupFlag k := by
  simp [State.fieldSum, State.groupFlag]

/-- A group is its flag, then its payload (41_literal_decoder.md R71). -/
theorem State.fieldSum_group (s : State) (k : Nat) : s.fieldSum k 5 = s.groupFlag k * 16 + s.groupPayload k := by
  rw [s.fieldSum_add k 1 4, s.fieldSum_one]
  rfl

theorem State.fieldSum_group_mod (s : State) (k : Nat) : s.fieldSum k 5 % 16 = s.groupPayload k := by
  have := s.groupPayload_lt k
  rw [s.fieldSum_group]
  omega

theorem State.groupContinues_fieldSum (s : State) (k : Nat) :
    groupContinues (s.fieldSum k 5) = true ↔ s.groupFlag k = 1 := by
  have := s.groupPayload_lt k
  have := s.groupFlag_le_one k
  rw [groupContinues, Nat.testBit_eq_decide_div_mod_eq, decide_eq_true_iff, s.fieldSum_group]
  omega

/-- The accumulator has no room for four more bits exactly from `2^60` on. -/
theorem accFull_iff (acc : Data) : accFull acc = true ↔ 2 ^ 60 ≤ acc.toNat := by
  have := acc.isLt
  rw [accFull, bne_iff_ne, ne_eq, BitVec.toNat_eq, BitVec.extractLsb'_toNat, Nat.shiftRight_eq_div_pow,
    BitVec.toNat_ofNat]
  omega

/-- With room, taking a group's payload in is `acc * 16 + payload` (41_literal_decoder.md R72). -/
theorem State.toNat_pushGroup (s : State) (k : Nat) (room : acc.toNat < 2 ^ 60) :
    (pushGroup acc (s.fieldSum k 5)).toNat = acc.toNat * 16 + s.groupPayload k := by
  rw [pushGroup, BitVec.toNat_append, BitVec.extractLsb'_toNat, BitVec.toNat_ofNat, s.fieldSum_group_mod,
    ← Nat.shiftLeft_add_eq_or_of_lt (s.groupPayload_lt k), Nat.shiftRight_zero, Nat.mod_eq_of_lt room,
    Nat.shiftLeft_eq]

/-! ## A run of groups -/

@[simp] theorem State.literalValue_zero (s : State) (k : Nat) : s.literalValue k 0 = 0 := rfl

/-- One more group: the value so far times 16, plus its payload. -/
theorem State.literalValue_succ (s : State) (k m : Nat) :
    s.literalValue k (m + 1) = s.literalValue k m * 16 + s.groupPayload (k + 5 * m) := by
  simp only [State.literalValue, Finset.sum_range_succ, Finset.sum_mul]
  congr 1
  · refine Finset.sum_congr rfl fun j hj => ?_
    have hj := Finset.mem_range.mp hj
    rw [show m + 1 - 1 - j = m - 1 - j + 1 by omega, pow_succ, mul_assoc]
  · simp

/-- The check of R72 before a group is taken in is exact: the value then fits 64 bits iff the value before fits 60. -/
theorem State.literalValue_succ_lt_iff (s : State) (k m : Nat) :
    s.literalValue k (m + 1) < 2 ^ 64 ↔ s.literalValue k m < 2 ^ 60 := by
  have := s.groupPayload_lt (k + 5 * m)
  rw [s.literalValue_succ]
  omega

/-- A value that outgrows 64 bits fits them, but not 60, before one of its groups. -/
theorem State.literalValue_crosses (large : 2 ^ 64 ≤ s.literalValue k m) :
    ∃ j < m, 2 ^ 60 ≤ s.literalValue k j ∧ s.literalValue k j < 2 ^ 64 := by
  induction m with
  | zero => simp at large
  | succ m ih =>
    by_cases fits : s.literalValue k m < 2 ^ 64
    · have full := (s.literalValue_succ_lt_iff k m).not.mp (Nat.not_lt.mpr large)
      exact ⟨m, m.lt_succ_self, Nat.not_lt.mp full, fits⟩
    · obtain ⟨j, hj, between⟩ := ih (Nat.not_lt.mp fits)
      exact ⟨j, hj.trans m.lt_succ_self, between⟩

/-- The accumulator of R72 after `m` groups, as long as their value fits. -/
def State.literalAcc (s : State) (k m : Nat) : Data := BitVec.ofNat 64 (s.literalValue k m)

theorem State.toNat_literalAcc (fits : s.literalValue k m < 2 ^ 64) :
    (s.literalAcc k m).toNat = s.literalValue k m := by
  rw [State.literalAcc, BitVec.toNat_ofNat, Nat.mod_eq_of_lt fits]

theorem State.pushGroup_literalAcc (room : s.literalValue k m < 2 ^ 60) :
    pushGroup (s.literalAcc k m) (s.fieldSum (k + 5 * m) 5) = s.literalAcc k (m + 1) := by
  have before : (s.literalAcc k m).toNat = s.literalValue k m := State.toNat_literalAcc (by omega)
  have after := State.toNat_literalAcc ((s.literalValue_succ_lt_iff k m).mpr room)
  rw [BitVec.toNat_eq, s.toNat_pushGroup _ (before ▸ room), before, after, s.literalValue_succ]

theorem State.NoGroupEnds.mono (h : s.NoGroupEnds k n) (le : m ≤ n) : s.NoGroupEnds k m :=
  fun j hj => h j (hj.trans_le le)

theorem State.noGroupEnds_succ (s : State) (k m : Nat) :
    s.NoGroupEnds k (m + 1) ↔ s.NoGroupEnds k m ∧ s.groupFlag (k + 5 * m) = 1 := Nat.forall_lt_succ_right

/-- A literal is a run of groups that go on, then one that ends it. -/
theorem State.literalEnds_iff (s : State) (k m : Nat) :
    s.LiteralEnds k m ↔ ∃ j, m = j + 1 ∧ s.NoGroupEnds k j ∧ s.groupFlag (k + 5 * j) = 0 := by
  constructor
  · rintro ⟨one, goOn, last⟩
    exact ⟨m - 1, by omega, goOn, last⟩
  · rintro ⟨j, rfl, goOn, last⟩
    exact ⟨by omega, goOn, last⟩

/-- Of `n` groups none ends the literal, or one is the first to end it. -/
theorem State.noGroupEnds_or_literalEnds (s : State) (k n : Nat) :
    s.NoGroupEnds k n ∨ ∃ m ≤ n, s.LiteralEnds k m := by
  induction n with
  | zero => exact .inl fun j hj => absurd hj j.not_lt_zero
  | succ n ih =>
    rcases ih with goOn | ⟨m, hm, ends⟩
    · rcases Nat.le_one_iff_eq_zero_or_eq_one.mp (s.groupFlag_le_one (k + 5 * n)) with last | flag
      · exact .inr ⟨n + 1, le_rfl, (s.literalEnds_iff k _).mpr ⟨n, rfl, goOn, last⟩⟩
      · exact .inl ((s.noGroupEnds_succ k n).mpr ⟨goOn, flag⟩)
    · exact .inr ⟨m, hm.trans n.le_succ, ends⟩

/-! ## The loop of R72 -/

/-- One turn of the loop, after `m` groups whose value fits. -/
theorem State.literalLoop_turn (inside : base + p + 5 * (m + 1) ≤ 8 * s.nbytes.toNat)
    (fits : s.literalValue (base + p) m < 2 ^ 64) :
    s.literalLoop base finish (n + 1) (p + 5 * m) (s.literalAcc (base + p) m) =
      if 2 ^ 60 ≤ s.literalValue (base + p) m then .next (s.raise .literalOverflow)
      else if s.groupFlag (base + p + 5 * m) = 1 then
        s.literalLoop base finish n (p + 5 * (m + 1)) (s.literalAcc (base + p) (m + 1))
      else finish (p + 5 * (m + 1)) (s.literalAcc (base + p) (m + 1)) := by
  rw [State.literalLoop, ← Nat.add_assoc base, s.withField_some (s.field_eq_fieldSum (by omega))]
  simp only [accFull_iff, State.toNat_literalAcc fits, s.groupContinues_fieldSum]
  split
  · rfl
  · next full => rw [State.pushGroup_literalAcc (Nat.not_le.mp full), Nat.add_assoc p, Nat.mul_succ]

/-- A run of groups that go on is taken in, as long as its value fits. -/
theorem State.literalLoop_run (goOn : s.NoGroupEnds (base + p) m) (within : m ≤ n)
    (inside : base + p + 5 * n ≤ 8 * s.nbytes.toNat) (fits : s.literalValue (base + p) m < 2 ^ 64) :
    s.literalLoop base finish n p 0 =
      s.literalLoop base finish (n - m) (p + 5 * m) (s.literalAcc (base + p) m) := by
  induction m with
  | zero => rfl
  | succ m ih =>
    obtain ⟨goOn, flag⟩ := (s.noGroupEnds_succ _ m).mp goOn
    have room := (s.literalValue_succ_lt_iff _ m).mp fits
    rw [ih goOn (by omega) (by omega), show n - m = n - (m + 1) + 1 by omega,
      State.literalLoop_turn (by omega) (by omega), if_neg (by omega), if_pos flag]

/-- The loop is truncated when every group left goes on and their value fits. -/
theorem State.literalLoop_truncated (goOn : s.NoGroupEnds (base + p) n)
    (inside : base + p + 5 * n ≤ 8 * s.nbytes.toNat) (fits : s.literalValue (base + p) n < 2 ^ 64) :
    s.literalLoop base finish n p 0 = .next (s.raise .truncated) := by
  rw [State.literalLoop_run goOn le_rfl inside fits, Nat.sub_self]
  rfl

/-- The loop finishes after the group that ends the literal, when the value fits. -/
theorem State.literalLoop_finishes (ends : s.LiteralEnds (base + p) m) (within : m ≤ n)
    (inside : base + p + 5 * n ≤ 8 * s.nbytes.toNat) (fits : s.literalValue (base + p) m < 2 ^ 64) :
    s.literalLoop base finish n p 0 = finish (p + 5 * m) (s.literalAcc (base + p) m) := by
  obtain ⟨j, rfl, goOn, last⟩ := (s.literalEnds_iff _ m).mp ends
  have room := (s.literalValue_succ_lt_iff _ j).mp fits
  rw [State.literalLoop_run goOn (by omega) inside (by omega), show n - j = n - (j + 1) + 1 by omega,
    State.literalLoop_turn (by omega) (by omega), if_neg (by omega), if_neg (by omega)]

/-- The loop overflows when groups that all go on, but perhaps the last, do not fit. -/
theorem State.literalLoop_overflows (goOn : s.NoGroupEnds (base + p) (m - 1)) (within : m ≤ n)
    (inside : base + p + 5 * n ≤ 8 * s.nbytes.toNat) (large : 2 ^ 64 ≤ s.literalValue (base + p) m) :
    s.literalLoop base finish n p 0 = .next (s.raise .literalOverflow) := by
  obtain ⟨j, hj, full, fits⟩ := State.literalValue_crosses large
  rw [State.literalLoop_run (goOn.mono (by omega)) (by omega) inside fits,
    show n - j = n - (j + 1) + 1 by omega, State.literalLoop_turn (by omega) fits, if_pos full]

/-! ## RDLIT -/

section
variable (hr : s.Ready (.rdlit cs)) (hi : (s.ctx cs).Inside s.nbytes)
include hr hi

/-- RDLIT on a literal in the view whose value fits is a move of its cursor that answers the value. -/
theorem exec_rdlit_literal (ends : s.LiteralEnds (s.ctx cs).address m) (within : 5 * m ≤ (s.ctx cs).remaining)
    (fits : s.literalValue (s.ctx cs).address m < 2 ^ 64) :
    exec (.rdlit cs) s = .next (s.advance cs (BitVec.ofNat 32 (5 * m)) (s.literalAcc (s.ctx cs).address m)) := by
  rw [exec_rdlit_ready hr, State.literalLoop_finishes ends (by omega) (hi.fits (by omega)) fits, BitVec.ofNat_add,
    BitVec.ofNat_toNat, BitVec.setWidth_eq]
  rfl

/-- RDLIT on groups that all go on, but perhaps the last, and whose value does not fit. -/
theorem exec_rdlit_overflow (goOn : s.NoGroupEnds (s.ctx cs).address (m - 1)) (within : 5 * m ≤ (s.ctx cs).remaining)
    (large : 2 ^ 64 ≤ s.literalValue (s.ctx cs).address m) :
    exec (.rdlit cs) s = .next (s.raise .literalOverflow) := by
  rw [exec_rdlit_ready hr, State.literalLoop_overflows goOn (by omega) (hi.fits (by omega)) large]

/-- RDLIT when every group left goes on and their value fits. -/
theorem exec_rdlit_truncated (goOn : s.NoGroupEnds (s.ctx cs).address ((s.ctx cs).remaining / 5))
    (fits : s.literalValue (s.ctx cs).address ((s.ctx cs).remaining / 5) < 2 ^ 64) :
    exec (.rdlit cs) s = .next (s.raise .truncated) := by
  rw [exec_rdlit_ready hr, State.literalLoop_truncated goOn (hi.fits (by omega)) fits]

end

/-- A move by a number of bits that remain. -/
theorem toNat_ofNat_of_le_remaining {c : Ctx} {d : Nat} (h : d ≤ c.remaining) : (BitVec.ofNat 32 d).toNat = d := by
  have := c.len.isLt
  simp only [Ctx.remaining] at h
  rw [BitVec.toNat_ofNat, Nat.mod_eq_of_lt (by omega)]

/-- Settles O17: on a literal that fits RDLIT is a move by its groups. -/
theorem rdlitAnswersValue : Obligations.RdlitAnswersValue := by
  intro s cs m hr hi ends within fits
  have h := exec_rdlit_literal hr hi ends within fits
  have hm : (BitVec.ofNat 32 (5 * m)).toNat = 5 * m := toNat_ofNat_of_le_remaining within
  obtain ⟨same, other, -, world⟩ := movingCommandsFrame s _ _ cs (.inr (.inr rfl)) h
  exact ⟨_, _, h, rfl, State.toNat_literalAcc fits, (State.advance_pos _ (hm.trans_le within)).trans (congrArg _ hm),
    same, other, rfl, world⟩

/-- Settles O23: the groups before the last go on. -/
theorem rdlitOverflows : Obligations.RdlitOverflows := by
  intro s cs m hr hi ⟨_, goOn, _⟩ within large
  exact exec_rdlit_overflow hr hi goOn within large

/-- Settles O24: the groups that are there fit, or outgrow 64 bits before the view ends. -/
theorem rdlitTruncated : Obligations.RdlitTruncated := by
  intro s cs hr hi goOn
  split
  · next fits => exact exec_rdlit_truncated hr hi goOn fits
  · next large =>
    exact exec_rdlit_overflow hr hi (goOn.mono (Nat.sub_le ..)) (Nat.mul_div_le ..) (Nat.not_lt.mp large)

/-- `FAULT` = 0 after a command shows that it passed the prologue. -/
theorem exec_ready_of_fault_zero (h : exec i s = .next t) (hf : t.fault = 0#4) : s.Ready i := by
  rcases exec_completes_or_keeps h with ⟨-, hr, -⟩ | ⟨hf', -⟩
  · exact hr
  · exact absurd hf hf'

/-- Settles O48: without a group that ends the literal, and with a value that does not fit, RDLIT faults. -/
theorem rdlitCompletesOnlyOnLiteral : Obligations.RdlitCompletesOnlyOnLiteral := by
  intro s t cs hi h hf
  have hr := exec_ready_of_fault_zero h hf
  have noFault (x : BcuFault) : exec (.rdlit cs) s ≠ .next (s.raise x) := by
    rintro e
    obtain rfl : s.raise x = t := by simpa [e] using h
    exact x.code_ne_zero hf
  rcases s.noGroupEnds_or_literalEnds (s.ctx cs).address ((s.ctx cs).remaining / 5) with goOn | ⟨m, hm, ends⟩
  · have e := rdlitTruncated s cs hr hi goOn
    split at e
    · exact absurd e (noFault .truncated)
    · exact absurd e (noFault .literalOverflow)
  · have within : 5 * m ≤ (s.ctx cs).remaining := by omega
    by_cases fits : s.literalValue (s.ctx cs).address m < 2 ^ 64
    · exact ⟨m, ends, within, fits⟩
    · exact absurd (rdlitOverflows s cs m hr hi ends within (Nat.not_lt.mp fits)) (noFault .literalOverflow)

/-! ## The host's own loop -/

theorem State.SameWorld.groupFlag (h : s.SameWorld t) (k : Nat) : t.groupFlag k = s.groupFlag k := by
  rw [← t.fieldSum_one, ← s.fieldSum_one, h.fieldSum]

theorem State.SameWorld.groupPayload (h : s.SameWorld t) (k : Nat) : t.groupPayload k = s.groupPayload k :=
  h.fieldSum (k + 1) 4

theorem hostLiteral_respond (s : State) (cs : CtxId) (n acc : Nat) (d : Data) :
    hostLiteral cs n acc (s.respond d) = hostLiteral cs n acc s := by
  cases n with
  | zero => rfl
  | succ n => simp only [hostLiteral, exec_respond]

/-- One turn of the host's loop: READ answers a group, whose flag is its bit 4 and whose payload is the rest. -/
theorem hostLiteral_group (hr : s.Ready (.read cs 5#32)) (hi : (s.ctx cs).Inside s.nbytes)
    (enough : 5 ≤ (s.ctx cs).remaining) (n a : Nat) :
    ∃ d, hostLiteral cs (n + 1) a s =
      if s.groupFlag (s.ctx cs).address = 1 then
        hostLiteral cs n (a * 16 + s.groupPayload (s.ctx cs).address) (s.advance cs 5#32 d)
      else some (a * 16 + s.groupPayload (s.ctx cs).address, s.advance cs 5#32 d) := by
  obtain ⟨d, read, value⟩ : ∃ d, exec (.read cs 5#32) s = .next (s.advance cs 5#32 d) ∧
      d.toNat = s.fieldSum (s.ctx cs).address 5 :=
    ⟨_, exec_read_enough hr hi enough, s.toNat_ofNat_fieldSum _ (by decide)⟩
  have answer : (s.advance cs 5#32 d).rsp = some ⟨0#4, d⟩ := rfl
  have flag : d.getLsbD 4 = true ↔ s.groupFlag (s.ctx cs).address = 1 := by
    rw [← s.groupContinues_fieldSum, groupContinues, BitVec.getLsbD, value]
  refine ⟨d, ?_⟩
  simp only [hostLiteral, read, answer, flag, value, s.fieldSum_group_mod, ne_eq, not_true_eq_false, if_false]

section
variable (hr : s.Ready i) (hs : i.source = some cs) (hi : (s.ctx cs).Inside s.nbytes)
include hr hs hi

/-- One turn of the host's loop, after `m` READs of a group each. -/
theorem hostLiteral_turn (enough : 5 * (m + 1) ≤ (s.ctx cs).remaining) (n : Nat) (d : Data) :
    ∃ d', hostLiteral cs (n + 1) (s.literalValue (s.ctx cs).address m) (s.advance cs (BitVec.ofNat 32 (5 * m)) d) =
      if s.groupFlag ((s.ctx cs).address + 5 * m) = 1 then
        hostLiteral cs n (s.literalValue (s.ctx cs).address (m + 1))
          (s.advance cs (BitVec.ofNat 32 (5 * (m + 1))) d')
      else some (s.literalValue (s.ctx cs).address (m + 1), s.advance cs (BitVec.ofNat 32 (5 * (m + 1))) d') := by
  have hm : (BitVec.ofNat 32 (5 * m)).toNat = 5 * m := toNat_ofNat_of_le_remaining (c := s.ctx cs) (by omega)
  have moved : (BitVec.ofNat 32 (5 * m)).toNat ≤ (s.ctx cs).remaining := by omega
  have world := State.advance_sameWorld (s := s) (cs := cs) (n := BitVec.ofNat 32 (5 * m)) d
  have left := State.advance_remaining d moved
  obtain ⟨d', e⟩ := hostLiteral_group ((hr.read hs (by decide)).advance d) (State.advance_inside d moved hi)
    (by omega) n (s.literalValue (s.ctx cs).address m)
  refine ⟨d', ?_⟩
  rw [e, State.advance_address d moved, hm, world.groupFlag, world.groupPayload, State.advance_advance,
    s.literalValue_succ, Nat.mul_succ 5, BitVec.ofNat_add]

/-- The host's loop takes in a run of groups that go on. -/
theorem hostLiteral_run (goOn : s.NoGroupEnds (s.ctx cs).address m) (within : m ≤ n)
    (enough : 5 * m ≤ (s.ctx cs).remaining) :
    ∃ d, hostLiteral cs n 0 s =
      hostLiteral cs (n - m) (s.literalValue (s.ctx cs).address m) (s.advance cs (BitVec.ofNat 32 (5 * m)) d) := by
  induction m with
  | zero => exact ⟨0#64, by rw [Nat.mul_zero, State.advance_zero, hostLiteral_respond]; rfl⟩
  | succ m ih =>
    obtain ⟨goOn, flag⟩ := (s.noGroupEnds_succ _ m).mp goOn
    obtain ⟨d, e⟩ := ih goOn (by omega) (by omega)
    obtain ⟨d', e'⟩ := hostLiteral_turn hr hs hi enough (n - (m + 1)) d
    exact ⟨d', by rw [e, show n - m = n - (m + 1) + 1 by omega, e', if_pos flag]⟩

/-- The host's loop ends after the group that ends the literal, where RDLIT would, whatever the literal's value. -/
theorem hostLiteral_ends (ends : s.LiteralEnds (s.ctx cs).address m) (within : 5 * m ≤ (s.ctx cs).remaining) :
    ∃ d, hostLiteral cs m 0 s =
      some (s.literalValue (s.ctx cs).address m, s.advance cs (BitVec.ofNat 32 (5 * m)) d) := by
  obtain ⟨j, rfl, goOn, last⟩ := (s.literalEnds_iff _ m).mp ends
  obtain ⟨d, e⟩ := hostLiteral_run hr hs hi goOn (n := j + 1) (by omega) (by omega)
  obtain ⟨d', e'⟩ := hostLiteral_turn hr hs hi within 0 d
  exact ⟨d', by rw [e, Nat.add_sub_cancel_left, e', if_neg (by omega)]⟩

end

/-- A command's response reports `FAULT` (30_encoding.md R42). -/
theorem exec_status (h : exec i s = .next t) : ∃ d, t.rsp = some ⟨t.fault, d⟩ := by
  rcases exec_answers h with ⟨-, rfl⟩ | ⟨-, x, rfl⟩ | ⟨⟨h0, -, -⟩, hc⟩
  · exact ⟨_, rfl⟩
  · exact ⟨_, rfl⟩
  · obtain ⟨-, -, -, hf, -, -, d, hd⟩ := hc.same
    exact ⟨d, by rw [hd, hf, h0]⟩

/-- Settles O47: both take in the groups of the literal RDLIT completed on, and move the cursor past them. -/
theorem rdlitIsReadLoop : Obligations.RdlitIsReadLoop := by
  intro s t cs d hi h hd
  have hf : t.fault = 0#4 := by
    obtain ⟨d', hd'⟩ := exec_status h
    exact congrArg Rsp.status (Option.some.inj (hd'.symm.trans hd))
  have hr := exec_ready_of_fault_zero h hf
  obtain ⟨m, ends, within, fits⟩ := rdlitCompletesOnlyOnLiteral s t cs hi h hf
  obtain rfl := Host.Outcome.next.inj ((exec_rdlit_literal hr hi ends within fits).symm.trans h)
  obtain rfl : s.literalAcc _ m = d := congrArg Rsp.data (Option.some.inj hd)
  obtain ⟨d', loop⟩ := hostLiteral_ends hr rfl hi ends within
  have value : s.literalValue (s.ctx cs).address m = (s.literalAcc (s.ctx cs).address m).toNat :=
    (State.toNat_literalAcc fits).symm
  rw [value] at loop
  exact ⟨m, _, loop, rfl, rfl⟩

end Sys2Proof.Machine
end

section
/-!
PROOFS about faults (spec/60_exceptions.md): fault entry (R82, R83), refusal after a fault (R84), the cases of
`OutOfBounds` (R78), and what a response with status 0 says of the launch before it.
-/

namespace Sys2Proof.Machine

open Sys2Proof

variable {s t : State} {i : Instr} {w : Cmd} {ms : List HostMove}

/-! ## A launch without a reset -/

/-- A state of a launch that meets the invariant and in which the host makes no further reset. -/
def State.InLastLaunch (s : State) : Prop := s.Inv ∧ ∀ bytes, HostMove.reset bytes ∉ s.host

theorem State.InLastLaunch.noResetNext (h : s.InLastLaunch) : s.NoResetNext :=
  fun bytes _ hh => h.2 bytes (by simp [hh])

/-- A step takes moves off the host's list and adds none. -/
theorem step_host_suffix (h : step s = .next t) : t.host <:+ s.host := by
  rcases step_next h with ⟨-, rfl⟩ | ⟨ms, hh, rfl⟩ | ⟨bytes, ms, hh, he⟩ | ⟨w, ms, r, -, -, rfl⟩ |
    ⟨w, ms, e, hh, -, -, he⟩ | ⟨w, ms, i, hh, -, -, he⟩
  · exact List.suffix_rfl
  · simp [hh, State.transfer_eq]
  · obtain ⟨-, e⟩ | ⟨bs, -, -, e⟩ | ⟨bs, -, -, e⟩ := State.hostReset_cases { s with host := ms } bytes <;>
      rw [e] at he <;> cases he <;> simp [hh]
  · simp [State.transfer_eq]
  · obtain ⟨-, -, -, -, ht, -⟩ := State.illegalWord_sameWorld he
    simp [hh, ht]
  · obtain ⟨-, -, -, -, ht, -⟩ := exec_sameWorld he
    simp [hh, ht]

theorem State.InLastLaunch.step (hl : s.InLastLaunch) (h : step s = .next t) : t.InLastLaunch :=
  ⟨stepKeepsInv s t hl.1 h, fun bytes hb => hl.2 bytes ((step_host_suffix h).mem hb)⟩

/-- What every step keeps, a run keeps. -/
theorem run_keeps {P : State → Prop} (keeps : ∀ {s t : State}, P s → step s = .next t → P t) {n : Nat} (hs : P s)
    (h : Host.Core.run core n s = .next t) : P t := by
  induction n generalizing s with
  | zero =>
    cases h
    exact hs
  | succ n ih =>
    cases hstep : step s with
    | next s' =>
      have hrun : Host.Core.run core (n + 1) s = Host.Core.run core n s' := by
        simp only [Host.Core.run, core, hstep]
      exact ih (keeps hs hstep) (hrun.symm.trans h)
    | fault r => simp [Host.Core.run, core, hstep] at h
    | refused r => simp [Host.Core.run, core, hstep] at h

/-- A `FAULT` that is set stays set to the end of a run without a reset. -/
theorem State.InLastLaunch.run_fault_ne_zero {n : Nat} (hl : s.InLastLaunch) (hf : s.fault ≠ 0#4)
    (h : Host.Core.run core n s = .next t) : t.fault ≠ 0#4 := by
  refine (run_keeps (P := fun s => s.InLastLaunch ∧ s.fault ≠ 0#4) (fun {s t} ⟨hl, hf⟩ hstep => ?_) ⟨hl, hf⟩ h).2
  obtain ⟨same, -⟩ := faultStickyUntilReset s t hstep hl.noResetNext hf
  exact ⟨hl.step hstep, by rwa [same]⟩

/-- Settles O38: a fault before would still stand in `FAULT`, and the response reports `FAULT`. -/
theorem successCertifiesHistory : Obligations.SuccessCertifiesHistory := by
  intro s u t m n d hi noReset toU toT hrsp
  have hu : u.InLastLaunch := run_keeps State.InLastLaunch.step ⟨hi, noReset⟩ toU
  obtain ⟨⟨-, -, -, -, reports, -⟩, -⟩ := run_keeps State.InLastLaunch.step hu toT
  have ht : t.fault = 0#4 := (reports _ hrsp).1.symm
  by_contra hf
  exact hu.run_fault_ne_zero hf toT ht

/-! ## Refusal after a fault -/

/-- After a fault the step that accepts a word refuses it, whatever the decoder says of it. -/
theorem step_refuses (h : s.host = .command w :: ms) (hr : s.rsp = none) (hf : s.fault ≠ 0#4) :
    step s = .next { s with host := ms }.refuse := by
  cases hd : decode s.build w with
  | error e => rw [step_illegal h hr hd, if_pos hf]
  | ok i =>
    rw [step_command h hr hd]
    exact exec_refuses (s := { s with host := ms }) hf

/-- Settles O18: both are `State.refuse`. -/
theorem refusedAfterFault : Obligations.RefusedAfterFault :=
  ⟨fun _ _ _ => step_refuses, fun _ _ => exec_refuses⟩

/-! ## Fault entry -/

/-- A command that sets `FAULT` did so by fault entry, from one of the checks of 60_exceptions.md R81. -/
theorem exec_raised (h0 : s.fault = 0#4) (h : exec i s = .next t) (hf : t.fault ≠ 0#4) :
    t = s.raise .illegalCommand ∨ t = s.raise .invalidCursor ∨ (s.Ready i ∧ ∃ x, OwnFault s i x ∧ t = s.raise x) := by
  rcases exec_next h with ⟨h', -⟩ | ⟨-, -, e⟩ | ⟨-, -, -, e⟩ | own | ⟨-, hc⟩
  · exact absurd h0 h'
  · exact .inl e
  · exact .inr (.inl e)
  · exact .inr (.inr own)
  · obtain ⟨-, -, -, same, -⟩ := hc.same
    exact absurd (same.trans h0) hf

theorem exec_raised_some (h0 : s.fault = 0#4) (h : exec i s = .next t) (hf : t.fault ≠ 0#4) : ∃ x, t = s.raise x := by
  rcases exec_raised h0 h hf with e | e | ⟨-, x, -, e⟩ <;> exact ⟨_, e⟩

/-- A step that accepts a word and sets `FAULT` is fault entry on the state without that move. -/
theorem step_raised_some (h : s.host = .command w :: ms) (hr : s.rsp = none) (h0 : s.fault = 0#4)
    (ht : step s = .next t) (hf : t.fault ≠ 0#4) : ∃ x, t = { s with host := ms }.raise x := by
  cases hd : decode s.build w with
  | error e =>
    rw [step_illegalCommand h hr h0 hd] at ht
    cases ht
    exact ⟨_, rfl⟩
  | ok i =>
    rw [step_command h hr hd] at ht
    exact exec_raised_some h0 ht hf

/-- Settles O20: a fault is raised by `State.raise` alone, which writes `FAULT` and the response. -/
theorem faultEntryChangesFaultOnly : Obligations.FaultEntryChangesFaultOnly := by
  refine ⟨fun s t i h0 h hf => ?_, fun s t w ms hh hr h0 h hf => ?_⟩
  · obtain ⟨x, rfl⟩ := exec_raised_some h0 h hf
    exact ⟨x.code_le_five, rfl⟩
  · obtain ⟨x, rfl⟩ := step_raised_some hh hr h0 h hf
    exact ⟨x.code_le_five, rfl⟩

/-! ## OutOfBounds -/

/-- Of a command's own faults, `OutOfBounds` is the one of a shortage. -/
theorem ownFault_outOfBounds (h : OwnFault s i .outOfBounds) : s.Shortage i := by
  cases h with
  | read cs w short => exact short
  | slice cd cs start len misfit => exact misfit
  | skip cs n short => exact short

theorem exec_slice_misfit {cd cs : CtxId} {start len : Offset} (hr : s.Ready (.slice cd cs start len))
    (misfit : (s.ctx cs).len.toNat < start.toNat + len.toNat) :
    exec (.slice cd cs start len) s = .next (s.raise .outOfBounds) := by
  rw [exec_slice_ready hr, if_pos (by simpa [Ctx.windowMisfit] using misfit)]

/-- A command that passes the prologue and is short raises `OutOfBounds`. -/
theorem exec_shortage (hr : s.Ready i) (hs : s.Shortage i) : exec i s = .next (s.raise .outOfBounds) := by
  cases i with
  | read cs w => exact exec_read_short hr hs
  | slice cd cs start len => exact exec_slice_misfit hr hs
  | skip cs n => exact exec_skip_short hr hs
  | openView | rem | pos | rdlit => exact hs.elim

/-- Settles O21: the other codes are those of the prologue and of RDLIT. -/
theorem outOfBoundsExactly : Obligations.OutOfBoundsExactly := by
  intro s i h0
  constructor
  · rintro ⟨t, h, hf⟩
    rcases exec_raised h0 h (by simp [hf]) with rfl | rfl | ⟨hr, x, own, rfl⟩
    · simp [BcuFault.code] at hf
    · simp [BcuFault.code] at hf
    · obtain rfl : x = .outOfBounds := BcuFault.code_injective hf
      exact ⟨hr, ownFault_outOfBounds own⟩
  · rintro ⟨hr, hs⟩
    exact ⟨_, exec_shortage hr hs, rfl⟩

end Sys2Proof.Machine
end

section
/-!
PROOFS about reset and hazards (spec/70_reset_and_hazards.md): which command can be the first of a launch (R96), and the
order of a SLICE and of the SKIP that advances its source (R98).
-/

namespace Sys2Proof.Machine

open Sys2Proof

variable {s : State} {i : Instr} {cd cs : CtxId} {start len n : Offset}

/-! ## The first command of a launch -/

/-- OPEN alone has no source context (40_cursor_commands.md R55). -/
theorem source_eq_none_iff : i.source = none ↔ ∃ cd, i = .openView cd := by
  cases i <;> simp [Instr.source]

/-- Settles O26: a command other than OPEN has a source, and no context is valid. -/
theorem firstCommandIsOpen : Obligations.FirstCommandIsOpen := by
  intro s i invalid h0 notOpen
  obtain ⟨cs, hcs⟩ : ∃ cs, i.source = some cs :=
    Option.ne_none_iff_exists'.mp fun noSource => (source_eq_none_iff.mp noSource).elim notOpen
  exact ⟨fun hw => exec_invalidCursor h0 hw ⟨cs, hcs, invalid cs⟩, exec_illegal h0⟩

/-! ## SLICE and the SKIP of its source -/

/-- Writes of two different contexts commute. -/
theorem State.setCtx_comm (hne : cd ≠ cs) (c c' : Ctx) :
    (s.setCtx cd c).setCtx cs c' = (s.setCtx cs c').setCtx cd c := by
  have index : cd.toNat ≠ cs.toNat := fun h => hne (BitVec.eq_of_toNat_eq h)
  simp only [State.setCtx, Vector.set_comm _ _ index]

/-- Writing a context does not touch the response. -/
theorem State.setCtx_respond (d : Data) (c : Ctx) : (s.respond d).setCtx cs c = (s.setCtx cs c).respond d := rfl

/-- Moving a cursor commutes with writing another context whole, when both answer alike. -/
theorem State.advance_setCtx (hne : cd ≠ cs) (c : Ctx) (d : Data) :
    ((s.setCtx cd c).respond d).advance cs n d = ((s.advance cs n d).setCtx cd c).respond d := by
  simp only [State.advance, State.setPos, State.ctx_respond, s.ctx_setCtx_other hne.symm, State.setCtx_respond,
    State.setCtx_comm hne]

/-- Where a SLICE passes the prologue, so does a SKIP of its source. -/
theorem State.Ready.skip_of_slice (hr : s.Ready (.slice cd cs start len)) : s.Ready (.skip cs n) := by
  obtain ⟨h0, ⟨-, hcs⟩, hv⟩ := hr
  exact ⟨h0, hcs, hv⟩

/-- Writing a context that is not a command's source does not change whether the command passes the prologue. -/
theorem State.Ready.setCtx (hr : s.Ready i) (other : cd ∉ i.source) (c : Ctx) (d : Data) :
    ((s.setCtx cd c).respond d).Ready i := by
  obtain ⟨h0, hw, hv⟩ := hr
  refine ⟨h0, hw, fun j hj => ?_⟩
  have hne : j ≠ cd := fun h => other (h ▸ hj)
  rw [State.ctx_respond, s.ctx_setCtx_other hne]
  exact hv j hj

/-- Settles O45: SLICE leaves its source as it was, the window does not depend on the source's position, and the two
write different contexts. -/
theorem sliceAndSkipCommute : Obligations.SliceAndSkipCommute := by
  intro s cd cs start len n hne hr fits enough
  have skipReady : s.Ready (.skip cs n) := hr.skip_of_slice
  have skipped := exec_skip_enough (skipReady.setCtx (by simpa [Instr.source] using hne.symm)
    ((s.ctx cs).window start len) 0) (by simpa [s.ctx_setCtx_other hne.symm, Ctx.remaining] using enough)
  have sliced := exec_slice_fits (hr.advance (cs := cs) (n := n) 0) (by simpa using fits)
  have sameWindow : ((s.advance cs n 0).ctx cs).window start len = (s.ctx cs).window start len := by
    simp [Ctx.window]
  rw [sameWindow, ← State.advance_setCtx hne] at sliced
  exact ⟨_, _, _, exec_slice_fits hr fits, skipped, exec_skip_enough skipReady enough, sliced, hr.1⟩

end Sys2Proof.Machine
end
